-- ==== Sys2Proof/Word.lean ====
section
/-! DEFINITION. The word types of the CHIP-8 core and the index types of its arrays (spec/00_scope.md R4, R5;
spec/10_state.md R10, R16, R18, R19). Every value of the machine is an unsigned bit vector of a stated width. -/

namespace Sys2Proof

/-- `u8`: a general register, a timer, a memory byte (R5, R10, R17, R30). -/
abbrev Byte := BitVec 8

/-- `u16`: I, pc, a call-stack entry, an instruction word (R12, R13, R16, R51). -/
abbrev Word := BitVec 16

/-- Index of a general register V0..VF (R10). -/
abbrev RegIdx := Fin 16

/-- Index of a keypad flag, 0x0..0xF (R19). -/
abbrev KeyIdx := Fin 16

/-- Framebuffer row, 0 (top) to 31 (R18). -/
abbrev Row := Fin 32

/-- Framebuffer column, 0 (left) to 63 (R18). -/
abbrev Col := Fin 64

/-- `a : b`, concatenation of two bytes with `a` in the high bits (R5). -/
abbrev bytesToWord (hi lo : Byte) : Word := hi ++ lo

end Sys2Proof
end

