-- ==== Sys2Proof/Machine/Flags.lean ====
section
/-! DEFINITION. The flag values written to VF (spec/41_alu.md R96 to R102, spec/43_display.md R127). There is one flag,
VF, always 0 or 1 when an instruction writes it as a flag (spec/10_state.md R11). -/

namespace Sys2Proof.Machine

/-- A flag as the byte stored in VF: 1 or 0 (R11). -/
def flagByte (b : Bool) : Byte := if b then 0x01#8 else 0x00#8

/-- `8xy4`: 1 if the true sum exceeds 255 (R96). -/
def carryFlag (a b : Byte) : Byte := flagByte (decide (a.toNat + b.toNat > 255))

/-- `8xy5`, `8xy7`: NOT borrow of `a - b`, 1 when a >= b (R97, R99). -/
def notBorrowFlag (a b : Byte) : Byte := flagByte (decide (a.toNat ≥ b.toNat))

/-- `8xy6`: the bit shifted out on the right, bit 0 (R98). -/
def shiftedOutRight (b : Byte) : Byte := flagByte (b.getLsbD 0)

/-- `8xyE`: the bit shifted out on the left, bit 7 (R100). -/
def shiftedOutLeft (b : Byte) : Byte := flagByte (b.getLsbD 7)

end Sys2Proof.Machine
end

