-- ==== Sys2Proof/Syntax.lean ====
section
/-! DEFINITION. The 34 instructions of spec/30_encoding.md R56, one constructor a row of spec/opcode_table.json,
in the table's order. Operands carry the widths of the fields of R52, so every value a field can hold is a value
of the operand and nothing else is. -/

namespace Sys2Proof

/-- The instruction set, complete (R56). `x`, `y` are register indices, `nn` an 8-bit immediate, `nnn` a 12-bit
address, `n` a row count (R52, R54). -/
inductive Instr where
  /-- `00E0` CLS -/
  | cls
  /-- `00EE` RET -/
  | ret
  /-- `1nnn` JP nnn -/
  | jp (nnn : BitVec 12)
  /-- `2nnn` CALL nnn -/
  | call (nnn : BitVec 12)
  /-- `3xnn` SE Vx, nn -/
  | seImm (x : RegIdx) (nn : Byte)
  /-- `4xnn` SNE Vx, nn -/
  | sneImm (x : RegIdx) (nn : Byte)
  /-- `5xy0` SE Vx, Vy -/
  | seReg (x y : RegIdx)
  /-- `6xnn` LD Vx, nn -/
  | ldImm (x : RegIdx) (nn : Byte)
  /-- `7xnn` ADD Vx, nn -/
  | addImm (x : RegIdx) (nn : Byte)
  /-- `8xy0` LD Vx, Vy -/
  | ldReg (x y : RegIdx)
  /-- `8xy1` OR Vx, Vy -/
  | orReg (x y : RegIdx)
  /-- `8xy2` AND Vx, Vy -/
  | andReg (x y : RegIdx)
  /-- `8xy3` XOR Vx, Vy -/
  | xorReg (x y : RegIdx)
  /-- `8xy4` ADD Vx, Vy -/
  | addReg (x y : RegIdx)
  /-- `8xy5` SUB Vx, Vy -/
  | subReg (x y : RegIdx)
  /-- `8xy6` SHR Vx, Vy -/
  | shrReg (x y : RegIdx)
  /-- `8xy7` SUBN Vx, Vy -/
  | subnReg (x y : RegIdx)
  /-- `8xyE` SHL Vx, Vy -/
  | shlReg (x y : RegIdx)
  /-- `9xy0` SNE Vx, Vy -/
  | sneReg (x y : RegIdx)
  /-- `Annn` LD I, nnn -/
  | ldI (nnn : BitVec 12)
  /-- `Bnnn` JP V0, nnn -/
  | jpV0 (nnn : BitVec 12)
  /-- `Cxnn` RND Vx, nn -/
  | rnd (x : RegIdx) (nn : Byte)
  /-- `Dxyn` DRW Vx, Vy, n -/
  | drw (x y : RegIdx) (n : BitVec 4)
  /-- `Ex9E` SKP Vx -/
  | skp (x : RegIdx)
  /-- `ExA1` SKNP Vx -/
  | sknp (x : RegIdx)
  /-- `Fx07` LD Vx, DT -/
  | ldVxDT (x : RegIdx)
  /-- `Fx0A` LD Vx, K -/
  | ldVxK (x : RegIdx)
  /-- `Fx15` LD DT, Vx -/
  | ldDTVx (x : RegIdx)
  /-- `Fx18` LD ST, Vx -/
  | ldSTVx (x : RegIdx)
  /-- `Fx1E` ADD I, Vx -/
  | addI (x : RegIdx)
  /-- `Fx29` LD F, Vx -/
  | ldF (x : RegIdx)
  /-- `Fx33` LD B, Vx -/
  | ldB (x : RegIdx)
  /-- `Fx55` LD [I], Vx -/
  | storeRegs (x : RegIdx)
  /-- `Fx65` LD Vx, [I] -/
  | loadRegs (x : RegIdx)
  deriving DecidableEq, Repr

end Sys2Proof
end

