-- ==== Sys2Proof/Decode.lean ====
section
/-! DEFINITION. Instruction encoding (spec/30_encoding.md): the fields of R52, the total decoder of R55, the opcode
table of R56 as data, and the encoder written from the same table. Nothing after this file sees raw encodings. -/

namespace Sys2Proof

/-! ## Fields (R52) -/

/-- `fam = op[15:12]`, the opcode family. -/
def fieldFam (op : Word) : BitVec 4 := op.extractLsb' 12 4
/-- `x = op[11:8]`. -/
def fieldX (op : Word) : RegIdx := (op.extractLsb' 8 4).toFin
/-- `y = op[7:4]`. -/
def fieldY (op : Word) : RegIdx := (op.extractLsb' 4 4).toFin
/-- `n = op[3:0]`. -/
def fieldN (op : Word) : BitVec 4 := op.extractLsb' 0 4
/-- `nn = op[7:0]`. -/
def fieldNN (op : Word) : Byte := op.extractLsb' 0 8
/-- `nnn = op[11:0]`. -/
def fieldNNN (op : Word) : BitVec 12 := op.extractLsb' 0 12

/-! ## Decoding (R55) -/

/-- Why bytes are no instruction. -/
inductive DecodeError where
  /-- The word matches no row of R56: the `Illegal` of R55. Executing it raises `UnknownOpcode` (R58). -/
  | illegal (op : Word)
  /-- Fewer than two bytes were given: every instruction is two bytes (R50). A fetch never asks this. -/
  | truncated
  deriving DecidableEq, Repr

/-- Family 0: `00E0` and `00EE`, matched on all 16 bits. -/
def decodeFamily0 (op : Word) : Except DecodeError Instr :=
  if op = 0x00E0#16 then .ok .cls
  else if op = 0x00EE#16 then .ok .ret
  else .error (.illegal op)

/-- Family 8: the sub-opcode is `op[3:0]` (R57). -/
def decodeFamily8 (op : Word) : Except DecodeError Instr :=
  match (fieldN op).toNat with
  | 0x0 => .ok (.ldReg (fieldX op) (fieldY op))
  | 0x1 => .ok (.orReg (fieldX op) (fieldY op))
  | 0x2 => .ok (.andReg (fieldX op) (fieldY op))
  | 0x3 => .ok (.xorReg (fieldX op) (fieldY op))
  | 0x4 => .ok (.addReg (fieldX op) (fieldY op))
  | 0x5 => .ok (.subReg (fieldX op) (fieldY op))
  | 0x6 => .ok (.shrReg (fieldX op) (fieldY op))
  | 0x7 => .ok (.subnReg (fieldX op) (fieldY op))
  | 0xE => .ok (.shlReg (fieldX op) (fieldY op))
  | _ => .error (.illegal op)

/-- Family E: the sub-opcode is `op[7:0]`. -/
def decodeFamilyE (op : Word) : Except DecodeError Instr :=
  match (fieldNN op).toNat with
  | 0x9E => .ok (.skp (fieldX op))
  | 0xA1 => .ok (.sknp (fieldX op))
  | _ => .error (.illegal op)

/-- Family F: the sub-opcode is `op[7:0]`. -/
def decodeFamilyF (op : Word) : Except DecodeError Instr :=
  match (fieldNN op).toNat with
  | 0x07 => .ok (.ldVxDT (fieldX op))
  | 0x0A => .ok (.ldVxK (fieldX op))
  | 0x15 => .ok (.ldDTVx (fieldX op))
  | 0x18 => .ok (.ldSTVx (fieldX op))
  | 0x1E => .ok (.addI (fieldX op))
  | 0x29 => .ok (.ldF (fieldX op))
  | 0x33 => .ok (.ldB (fieldX op))
  | 0x55 => .ok (.storeRegs (fieldX op))
  | 0x65 => .ok (.loadRegs (fieldX op))
  | _ => .error (.illegal op)

/-- `Decode(op : u16)`, R55: total; one instruction with its fields, or `Illegal` by name. Patterns are matched
exactly (decision D1, spec/90_conflicts.md C2; log entry 18). -/
def decode (op : Word) : Except DecodeError Instr :=
  match (fieldFam op).toNat with
  | 0x0 => decodeFamily0 op
  | 0x1 => .ok (.jp (fieldNNN op))
  | 0x2 => .ok (.call (fieldNNN op))
  | 0x3 => .ok (.seImm (fieldX op) (fieldNN op))
  | 0x4 => .ok (.sneImm (fieldX op) (fieldNN op))
  | 0x5 => if fieldN op = 0x0#4 then .ok (.seReg (fieldX op) (fieldY op)) else .error (.illegal op)
  | 0x6 => .ok (.ldImm (fieldX op) (fieldNN op))
  | 0x7 => .ok (.addImm (fieldX op) (fieldNN op))
  | 0x8 => decodeFamily8 op
  | 0x9 => if fieldN op = 0x0#4 then .ok (.sneReg (fieldX op) (fieldY op)) else .error (.illegal op)
  | 0xA => .ok (.ldI (fieldNNN op))
  | 0xB => .ok (.jpV0 (fieldNNN op))
  | 0xC => .ok (.rnd (fieldX op) (fieldNN op))
  | 0xD => .ok (.drw (fieldX op) (fieldY op) (fieldN op))
  | 0xE => decodeFamilyE op
  | _ => decodeFamilyF op

/-- The decoder on a byte stream: the word is big-endian, `op = byte at pc : byte at pc + 1` (R39, R51), and the
rest of the stream is handed back. -/
def decodeBytes : List Byte → Except DecodeError (Instr × List Byte)
  | hi :: lo :: rest =>
    match decode (bytesToWord hi lo) with
    | .ok i => .ok (i, rest)
    | .error e => .error e
  | _ => .error .truncated

/-- An instruction word as the bytes memory holds, high byte first (R39, R51). -/
def wordBytes (op : Word) : List Byte := [op.extractLsb' 8 8, op.extractLsb' 0 8]

/-- The word that spec/opcode_table.json numbers as `w` with `nbits` bits given. There is one 16-bit word, bit 0 its
least significant bit; every bit above `nbits` is 0. -/
def tableWord (nbits w : Nat) : Word := BitVec.ofNat 16 (w % 2 ^ nbits)

/-- What the decoder reads from the bytes of a row of spec/opcode_table.json. -/
def decodeTableWord (nbits w : Nat) : Option Instr :=
  match decodeBytes (wordBytes (tableWord nbits w)) with
  | .ok (i, _) => some i
  | .error _ => none

/-! ## The opcode table as data (R56) -/

/-- A row of R56: a word `w` is the instruction iff `(w & mask) = bits`. -/
structure OpcodeRow where
  /-- the `match` column -/
  bits : Word
  /-- the `mask` column -/
  mask : Word
  deriving DecidableEq, Repr

/-- `(w & mask) = match` (R55). -/
def OpcodeRow.covers (r : OpcodeRow) (w : Word) : Bool := w &&& r.mask == r.bits

/-- The row of R56 an instruction is an instance of. -/
def Instr.row : Instr → OpcodeRow
  | .cls => ⟨0x00E0#16, 0xFFFF#16⟩
  | .ret => ⟨0x00EE#16, 0xFFFF#16⟩
  | .jp _ => ⟨0x1000#16, 0xF000#16⟩
  | .call _ => ⟨0x2000#16, 0xF000#16⟩
  | .seImm _ _ => ⟨0x3000#16, 0xF000#16⟩
  | .sneImm _ _ => ⟨0x4000#16, 0xF000#16⟩
  | .seReg _ _ => ⟨0x5000#16, 0xF00F#16⟩
  | .ldImm _ _ => ⟨0x6000#16, 0xF000#16⟩
  | .addImm _ _ => ⟨0x7000#16, 0xF000#16⟩
  | .ldReg _ _ => ⟨0x8000#16, 0xF00F#16⟩
  | .orReg _ _ => ⟨0x8001#16, 0xF00F#16⟩
  | .andReg _ _ => ⟨0x8002#16, 0xF00F#16⟩
  | .xorReg _ _ => ⟨0x8003#16, 0xF00F#16⟩
  | .addReg _ _ => ⟨0x8004#16, 0xF00F#16⟩
  | .subReg _ _ => ⟨0x8005#16, 0xF00F#16⟩
  | .shrReg _ _ => ⟨0x8006#16, 0xF00F#16⟩
  | .subnReg _ _ => ⟨0x8007#16, 0xF00F#16⟩
  | .shlReg _ _ => ⟨0x800E#16, 0xF00F#16⟩
  | .sneReg _ _ => ⟨0x9000#16, 0xF00F#16⟩
  | .ldI _ => ⟨0xA000#16, 0xF000#16⟩
  | .jpV0 _ => ⟨0xB000#16, 0xF000#16⟩
  | .rnd _ _ => ⟨0xC000#16, 0xF000#16⟩
  | .drw _ _ _ => ⟨0xD000#16, 0xF000#16⟩
  | .skp _ => ⟨0xE09E#16, 0xF0FF#16⟩
  | .sknp _ => ⟨0xE0A1#16, 0xF0FF#16⟩
  | .ldVxDT _ => ⟨0xF007#16, 0xF0FF#16⟩
  | .ldVxK _ => ⟨0xF00A#16, 0xF0FF#16⟩
  | .ldDTVx _ => ⟨0xF015#16, 0xF0FF#16⟩
  | .ldSTVx _ => ⟨0xF018#16, 0xF0FF#16⟩
  | .addI _ => ⟨0xF01E#16, 0xF0FF#16⟩
  | .ldF _ => ⟨0xF029#16, 0xF0FF#16⟩
  | .ldB _ => ⟨0xF033#16, 0xF0FF#16⟩
  | .storeRegs _ => ⟨0xF055#16, 0xF0FF#16⟩
  | .loadRegs _ => ⟨0xF065#16, 0xF0FF#16⟩

/-- One instruction of each row, in the table's order (the fields do not matter to `Instr.row`). -/
def oneOfEachRow : List Instr :=
  [.cls, .ret, .jp 0, .call 0, .seImm 0 0, .sneImm 0 0, .seReg 0 0, .ldImm 0 0, .addImm 0 0, .ldReg 0 0,
   .orReg 0 0, .andReg 0 0, .xorReg 0 0, .addReg 0 0, .subReg 0 0, .shrReg 0 0, .subnReg 0 0] ++
  [.shlReg 0 0, .sneReg 0 0, .ldI 0, .jpV0 0, .rnd 0 0, .drw 0 0 0, .skp 0, .sknp 0, .ldVxDT 0, .ldVxK 0,
   .ldDTVx 0, .ldSTVx 0, .addI 0, .ldF 0, .ldB 0, .storeRegs 0, .loadRegs 0]

/-- The 34 rows of R56. -/
def opcodeTable : List OpcodeRow := oneOfEachRow.map Instr.row

/-! ## Encoding: a row's `match` bits plus its fields at their places (R52, R53, R56) -/

/-- Format NNN: `nnn` at 11:0. -/
def encodeNNN (bits : Word) (nnn : BitVec 12) : Word := BitVec.ofNat 16 (bits.toNat + nnn.toNat)
/-- Format XNN: `x` at 11:8, `nn` at 7:0. -/
def encodeXNN (bits : Word) (x : RegIdx) (nn : Byte) : Word := BitVec.ofNat 16 (bits.toNat + x.val * 256 + nn.toNat)
/-- Format XY: `x` at 11:8, `y` at 7:4. -/
def encodeXY (bits : Word) (x y : RegIdx) : Word := BitVec.ofNat 16 (bits.toNat + x.val * 256 + y.val * 16)
/-- Format XYN: `x` at 11:8, `y` at 7:4, `n` at 3:0. -/
def encodeXYN (bits : Word) (x y : RegIdx) (n : BitVec 4) : Word :=
  BitVec.ofNat 16 (bits.toNat + x.val * 256 + y.val * 16 + n.toNat)
/-- Format XF: `x` at 11:8. -/
def encodeXF (bits : Word) (x : RegIdx) : Word := BitVec.ofNat 16 (bits.toNat + x.val * 256)

/-- The word of an instruction (R53, R56). -/
def encode (i : Instr) : Word :=
  match i with
  | .cls => 0x00E0#16
  | .ret => 0x00EE#16
  | .jp nnn => encodeNNN 0x1000#16 nnn
  | .call nnn => encodeNNN 0x2000#16 nnn
  | .seImm x nn => encodeXNN 0x3000#16 x nn
  | .sneImm x nn => encodeXNN 0x4000#16 x nn
  | .seReg x y => encodeXY 0x5000#16 x y
  | .ldImm x nn => encodeXNN 0x6000#16 x nn
  | .addImm x nn => encodeXNN 0x7000#16 x nn
  | .ldReg x y => encodeXY 0x8000#16 x y
  | .orReg x y => encodeXY 0x8001#16 x y
  | .andReg x y => encodeXY 0x8002#16 x y
  | .xorReg x y => encodeXY 0x8003#16 x y
  | .addReg x y => encodeXY 0x8004#16 x y
  | .subReg x y => encodeXY 0x8005#16 x y
  | .shrReg x y => encodeXY 0x8006#16 x y
  | .subnReg x y => encodeXY 0x8007#16 x y
  | .shlReg x y => encodeXY 0x800E#16 x y
  | .sneReg x y => encodeXY 0x9000#16 x y
  | .ldI nnn => encodeNNN 0xA000#16 nnn
  | .jpV0 nnn => encodeNNN 0xB000#16 nnn
  | .rnd x nn => encodeXNN 0xC000#16 x nn
  | .drw x y n => encodeXYN 0xD000#16 x y n
  | .skp x => encodeXF 0xE09E#16 x
  | .sknp x => encodeXF 0xE0A1#16 x
  | .ldVxDT x => encodeXF 0xF007#16 x
  | .ldVxK x => encodeXF 0xF00A#16 x
  | .ldDTVx x => encodeXF 0xF015#16 x
  | .ldSTVx x => encodeXF 0xF018#16 x
  | .addI x => encodeXF 0xF01E#16 x
  | .ldF x => encodeXF 0xF029#16 x
  | .ldB x => encodeXF 0xF033#16 x
  | .storeRegs x => encodeXF 0xF055#16 x
  | .loadRegs x => encodeXF 0xF065#16 x

end Sys2Proof
end

