-- ==== Sys2Proof/Config.lean ====
section
/-! DEFINITION. What is fixed for the machine (spec/00_scope.md R4) and the one free value. The sizes are the
source's; the five named parameters (`MEM_FILL`, `FONT_TABLE`, `LOADSTORE_INCREMENTS_I`, `KEY_INDEX_POLICY`,
`KEY_PRIORITY`) are decisions of the spec, held here at the value R4 says this hardware takes. The operations
that depend on them take them as ARGUMENTS: `resetContents` the fill byte and the font, `keyScan` the order of the keys
(Machine/Ops.lean), `indexAfterTransfer` and `keyIndex` their switches (Machine/Operands.lean). -/

namespace Sys2Proof.Config

/-- `MEM_SIZE`: 4096 bytes, addresses 0x000..0xFFF (R4, R30). -/
def memSize : Nat := 0x1000

/-- `FONT_BASE` (R4, R32). -/
def fontBase : Nat := 0x050

/-- Size of the font region: 16 glyphs of 5 bytes (R4, R32). -/
def fontSize : Nat := 80

/-- `PROG_BASE`: first address of the program region and entry point (R4, R31, R33). -/
def progBase : Nat := 0x200

/-- `ROM_MAX`: the longest ROM, 0xE00 = 3584 bytes (R4, R182). -/
def romMax : Nat := 0xE00

/-- `STACK_DEPTH` (R4, R16). -/
def stackDepth : Nat := 16

/-- `MEM_FILL`: what every byte outside the font region and the loaded ROM holds after reset (R4, R35).
DESIGN CHOICE of the spec (decision D9); unsafe; log entry 5. -/
def memFill : Byte := 0x00#8

/-- `FONT_TABLE`: the 80 font bytes, 5 a digit, top row first (R4, R34). PRESUMED: the spec takes the bytes
from general knowledge (decision D10); unsafe; log entry 6. -/
def fontTable : List Byte :=
  [0xF0#8, 0x90#8, 0x90#8, 0x90#8, 0xF0#8] ++ [0x20#8, 0x60#8, 0x20#8, 0x20#8, 0x70#8] ++
  [0xF0#8, 0x10#8, 0xF0#8, 0x80#8, 0xF0#8] ++ [0xF0#8, 0x10#8, 0xF0#8, 0x10#8, 0xF0#8] ++
  [0x90#8, 0x90#8, 0xF0#8, 0x10#8, 0x10#8] ++ [0xF0#8, 0x80#8, 0xF0#8, 0x10#8, 0xF0#8] ++
  [0xF0#8, 0x80#8, 0xF0#8, 0x90#8, 0xF0#8] ++ [0xF0#8, 0x10#8, 0x20#8, 0x40#8, 0x40#8] ++
  [0xF0#8, 0x90#8, 0xF0#8, 0x90#8, 0xF0#8] ++ [0xF0#8, 0x90#8, 0xF0#8, 0x10#8, 0xF0#8] ++
  [0xF0#8, 0x90#8, 0xF0#8, 0x90#8, 0x90#8] ++ [0xE0#8, 0x90#8, 0xE0#8, 0x90#8, 0xE0#8] ++
  [0xF0#8, 0x80#8, 0x80#8, 0x80#8, 0xF0#8] ++ [0xE0#8, 0x90#8, 0x90#8, 0x90#8, 0xE0#8] ++
  [0xF0#8, 0x80#8, 0xF0#8, 0x80#8, 0xF0#8] ++ [0xF0#8, 0x80#8, 0xF0#8, 0x80#8, 0x80#8]

/-- `LOADSTORE_INCREMENTS_I`: does `Fx55`/`Fx65` end with I <- I + x + 1 (R4, R112)? This hardware: no.
DESIGN CHOICE of the spec (decision D17); unsafe; log entry 8. -/
def loadStoreIncrementsI : Bool := false

/-- The two settings of `KEY_INDEX_POLICY` (R137, decision D22). -/
inductive KeyIndexPolicy where
  /-- A key index above 0xF raises `KeyIndexError`. -/
  | fault
  /-- A key index above 0xF is reduced to its low nibble. -/
  | mask
  deriving DecidableEq, Repr

/-- `KEY_INDEX_POLICY`: this hardware faults (R4, R137). DESIGN CHOICE of the spec (decision D22); safe; log
entry 9. -/
def keyIndexPolicy : KeyIndexPolicy := .fault

/-- `KEY_PRIORITY`: the order in which `KeyScan` looks at the flags; the first pressed one wins. This hardware
scans from 0x0 upward, so the lowest pressed index wins (R4, R141). DESIGN CHOICE of the spec (decision D24);
unsafe when two or more keys are down; log entry 10. -/
def keyPriority : List KeyIdx := List.finRange 16

/-- `Rand8()`, a free value: the n-th random byte the host supplies, under no law (R104, decision D21). It has
no body, so nothing can be proved about its value. `State.draws` says which draw is next. Log entry 3. -/
opaque randomByte : Nat → Byte

end Sys2Proof.Config
end

