-- ==== Sys2Proof/Machine/State.lean ====
section
/-! DEFINITION. The machine's state (spec/10_state.md R10 to R25), the fault records it can latch
(spec/60_exceptions.md R150), the host's events (spec/00_scope.md R3) and the state after reset (R25, R180). -/

namespace Sys2Proof.Machine

/-- What the fault latch `FAULT` can hold besides `None` (R150). A `STEP` raises one by latching it: a NEXT state
(R151). It is the spec's exception, not an outcome that ends a run; a latched state is never a successful end
(R160, log entry 1). The kinds' numeric codes are `FaultRecord.code` (Machine/Ops.lean). -/
inductive FaultRecord where
  /-- The fetched word matches no row of the opcode table (R153): the address it was fetched from, and the word. -/
  | unknownOpcode (addr word : Word)
  /-- `2nnn` with 16 live entries (R155): SP at the time. -/
  | stackOverflow (depth : Nat)
  /-- `00EE` with no live entry (R156): SP at the time. -/
  | stackUnderflow (depth : Nat)
  /-- A data or fetch address above 0xFFF, a store into the font, or a pc target outside [0x200, 0xFFF] (R154):
  the offending address or target, an integer up to 0x1000E. -/
  | memoryAccessError (addr : Nat)
  /-- `Ex9E` or `ExA1` with Vx above 0x0F (R157): the value of Vx. -/
  | keyIndexError (index : Byte)
  deriving DecidableEq, Repr

/-- The events of R3, each atomic. `STEP`'s random byte is not an argument here: it is the free value
`Config.randomByte` at `State.draws` (R104, log entry 3). -/
inductive Event where
  /-- The core runs one `STEP` (R70). -/
  | step
  /-- The timer clock runs one `TICK` (R145). -/
  | tick
  /-- The host writes one key flag; the index is any integer, and one above 15 is rejected (R146). -/
  | setKey (index : Nat) (pressed : Bool)
  /-- The host takes a snapshot; nothing is written (R131). -/
  | read
  /-- The host constructs the machine with a ROM (R180). -/
  | reset (rom : List Byte)
  deriving DecidableEq, Repr

/-- The reasons for which a run of the model ends with a fault. -/
inductive Fault where
  /-- `LoadError` (R158, R182): a `RESET` event whose ROM is longer than 3584 bytes; raised by the reset event alone,
  before any machine exists. Safe: the spec leaves no state to go on from. -/
  | loadError (size : Nat)
  deriving DecidableEq, Repr

/-- The reasons for which the model has no meaning to give. No meaning of this model ends in one. -/
inductive Refusal where
  /-- An instruction without a meaning, by its table mnemonic; raised only by an arm of `exec` that has none (there
  is no such arm). Safe: nothing is claimed of it. -/
  | notModelled (mnemonic : String)
  deriving DecidableEq, Repr

/-- Framebuffer: `fb[r][c]`, 32 rows of 64 pixels, `true` = on (R18, R125). -/
abbrev Framebuffer := Vector (Vector Bool 64) 32

/-- The memory bank as the list of bytes that differ from what an unlisted address reads as (R22, R30). Canonical:
`Memory.wf`. -/
abbrev Memory := List Host.Cell

/-- The state of the machine: exactly the pieces of R24, then the model's own two fields. -/
structure State where
  /-- General registers V0..VF; VF is also the flag (R10, R11). -/
  V : Vector Byte 16
  /-- Address register (R12). -/
  I : Word
  /-- Program counter (R13). -/
  pc : Word
  /-- Call-stack entries; `stack[0]..stack[SP-1]` are live (R16). -/
  stack : Vector Word 16
  /-- Call-stack depth, 0 to 16 (R16). -/
  SP : Fin 17
  /-- Delay timer (R17). -/
  DT : Byte
  /-- Sound timer (R17). -/
  ST : Byte
  /-- Framebuffer (R18). -/
  fb : Framebuffer
  /-- Keypad flags, `true` = pressed (R19). -/
  key : Vector Bool 16
  /-- The core is blocked in `Fx0A` (R20). -/
  WAIT : Bool
  /-- The x of the `Fx0A` that started the wait; meaningful only while WAIT (R20). -/
  WAITX : RegIdx
  /-- The sticky fault latch (R21). -/
  FAULT : Option FaultRecord
  /-- The memory bank (R22). -/
  mem : Memory
  /-- The model's own field: how many random bytes the host has supplied (R104, log entry 3). -/
  draws : Nat
  /-- The model's own field: the host's events still to come, oldest first; empty means the next event is a `STEP`
  (R3, R147, log entry 2). -/
  schedule : List Event
  deriving DecidableEq, Repr

/-- The state right after `RESET` with the empty ROM (R25, R180; R182 accepts length 0). The zeros are decision D9
(log entries 4, 5); the font stands in what an unlisted address reads as (log entry 6); `draws` and `schedule` are
the model's own (log entries 2, 3). -/
def State.reset : State where
  V := Vector.replicate 16 0x00#8
  I := 0x0000#16
  pc := 0x0200#16
  stack := Vector.replicate 16 0x0000#16
  SP := 0
  DT := 0x00#8
  ST := 0x00#8
  fb := Vector.replicate 32 (Vector.replicate 64 false)
  key := Vector.replicate 16 false
  WAIT := false
  WAITX := 0
  FAULT := none
  mem := []
  draws := 0
  schedule := []

end Sys2Proof.Machine
end

