-- ==== Sys2Proof/WellFormed.lean ====
section
/-! DEFINITION. Which terms are well formed. An `Instr` carries each field at the width R52 gives it, so every term of
the type is an instruction of R56 and its check refuses nothing; the checks that can refuse are those on operands given
as plain numbers (an assembler's operands, spec/30_encoding.md R60) and on the arguments of the host's events
(spec/70_reset_and_hazards.md R182, R184; spec/44_keypad_timers.md R146). -/

namespace Sys2Proof

/-- A register operand `V0`..`VF` given as a number (R52, R60). -/
def wellFormedReg (x : Nat) : Bool := decide (x < 16)
/-- An 8-bit immediate given as a number (R52). -/
def wellFormedNN (nn : Nat) : Bool := decide (nn < 256)
/-- A row count given as a number (R52). -/
def wellFormedN (n : Nat) : Bool := decide (n < 16)
/-- A 12-bit address given as a number (R52). -/
def wellFormedNNN (nnn : Nat) : Bool := decide (nnn < 4096)

/-- The fields of an instruction fit their places in the word (R52, R54: all 16 registers are legal for x and y, x = y
and x = 15 included, and every value of an immediate is legal). -/
def Instr.wellFormed : Instr → Bool
  | .cls | .ret => true
  | .jp nnn | .call nnn | .ldI nnn | .jpV0 nnn => wellFormedNNN nnn.toNat
  | .seImm x nn | .sneImm x nn | .ldImm x nn | .addImm x nn | .rnd x nn => wellFormedReg x.val && wellFormedNN nn.toNat
  | .seReg x y | .ldReg x y | .orReg x y | .andReg x y | .xorReg x y | .addReg x y | .subReg x y | .shrReg x y
  | .subnReg x y | .shlReg x y | .sneReg x y => wellFormedReg x.val && wellFormedReg y.val
  | .drw x y n => wellFormedReg x.val && wellFormedReg y.val && wellFormedN n.toNat
  | .skp x | .sknp x | .ldVxDT x | .ldVxK x | .ldDTVx x | .ldSTVx x | .addI x | .ldF x | .ldB x | .storeRegs x
  | .loadRegs x => wellFormedReg x.val

/-- A ROM the machine accepts: at most 3584 bytes (R182). -/
def wellFormedRom (rom : List Byte) : Bool := decide (rom.length ≤ Config.romMax)

/-- A key index the host may give: 0 to 15 (R146, R184). -/
def wellFormedKeyIndex (index : Nat) : Bool := decide (index < 16)

/-- An event whose arguments keep the host's side of the contract (R184). -/
def Machine.Event.wellFormed : Machine.Event → Bool
  | .step | .tick | .read => true
  | .setKey index _ => wellFormedKeyIndex index
  | .reset rom => wellFormedRom rom

end Sys2Proof
end

