-- ==== Sys2Proof/Machine/Ops.lean ====
section
/-! DEFINITION. The named operations of the machine: memory (spec/20_memory.md R36 to R39), registers and call stack
(spec/10_state.md R10, R16), the framebuffer's pixels (R18), the keypad scan (spec/44_keypad_timers.md R141), raising a
fault (spec/60_exceptions.md R151) and writing pc through its range check (spec/10_state.md R14). -/

namespace Sys2Proof.Machine

/-! ## Memory (R30 to R39) -/

/-- Is `a` in the font region 0x050..0x09F (R31)? -/
def inFont (a : Nat) : Bool := decide (0x050 ≤ a) && decide (a ≤ 0x09F)

/-- The byte at `a` before any store or ROM: `font` in the font region, `fill` elsewhere (R31, R34, R35). R4's parameters
`MEM_FILL` and `FONT_TABLE` are its arguments. -/
def resetContents (fill : Byte) (font : List Byte) (a : Nat) : Byte :=
  if inFont a then font.getD (a - Config.fontBase) fill else fill

/-- What an unlisted address reads as: the reset contents of the bank at the values R4 gives this hardware (log entries
5, 6). -/
def Memory.background (a : Nat) : Byte := resetContents Config.memFill Config.fontTable a

/-- The byte at an address. -/
def Memory.read : Memory → Nat → Byte
  | [], a => Memory.background a
  | (b, v) :: rest, a => if b = a then v else Memory.read rest a

/-- `mem[a] <- v`, no check; keeps the canonical form: an entry equal to the background is not listed. -/
def Memory.write : Memory → Nat → Byte → Memory
  | [], a, v => if v = Memory.background a then [] else [(a, v)]
  | (b, w) :: rest, a, v =>
    if a < b then (if v = Memory.background a then (b, w) :: rest else (a, v) :: (b, w) :: rest)
    else if a = b then (if v = Memory.background a then rest else (a, v) :: rest)
    else (b, w) :: Memory.write rest a v

/-- The canonical form from address `lo` on: addresses strictly rising and inside the bank, no entry equal to the
background. -/
def Memory.wfFrom : Nat → Memory → Bool
  | _, [] => true
  | lo, (a, v) :: rest =>
    decide (lo ≤ a) && decide (a < Config.memSize) && decide (v ≠ Memory.background a) && Memory.wfFrom (a + 1) rest

/-- The canonical form of the memory bank. -/
def Memory.wf (m : Memory) : Bool := Memory.wfFrom 0 m

/-- Consecutive bytes to ascending addresses, no check. -/
def Memory.writeBytes : Memory → Nat → List Byte → Memory
  | m, _, [] => m
  | m, a, b :: bs => Memory.writeBytes (m.write a b) (a + 1) bs

/-- `MemRead(addr, 1)` (R36). -/
def memRead (m : Memory) (addr : Nat) : Except FaultRecord Byte :=
  if addr > 0xFFF then .error (.memoryAccessError addr) else .ok (m.read addr)

/-- `MemRead(addr, 2)` (R36), instruction fetch only: big-endian, the first byte checked first. -/
def memRead2 (m : Memory) (addr : Nat) : Except FaultRecord Word :=
  if addr > 0xFFF then .error (.memoryAccessError addr)
  else if addr + 1 > 0xFFF then .error (.memoryAccessError (addr + 1))
  else .ok (bytesToWord (m.read addr) (m.read (addr + 1)))

/-- `n` single-byte reads at ascending addresses; the lowest failing address is the one reported (R38, R154). -/
def readRange (m : Memory) : Nat → Nat → Except FaultRecord (List Byte)
  | _, 0 => .ok []
  | addr, n + 1 =>
    match memRead m addr with
    | .error k => .error k
    | .ok b =>
      match readRange m (addr + 1) n with
      | .error k => .error k
      | .ok bs => .ok (b :: bs)

/-- The checks of `MemWrite(addr, 1, _)` (R37): the bounds, then the font region (decision D11, log entry 12). -/
def checkWrite (addr : Nat) : Except FaultRecord Unit :=
  if addr > 0xFFF then .error (.memoryAccessError addr)
  else if inFont addr then .error (.memoryAccessError addr)
  else .ok ()

/-- The checks of `n` single-byte writes at ascending addresses. -/
def checkWriteRange : Nat → Nat → Except FaultRecord Unit
  | _, 0 => .ok ()
  | addr, n + 1 =>
    match checkWrite addr with
    | .error k => .error k
    | .ok () => checkWriteRange (addr + 1) n

/-- Store consecutive bytes: every check first, then every write (R37, R152), so a store that would fault anywhere
stores nothing. -/
def storeBytes (m : Memory) (addr : Nat) (bytes : List Byte) : Except FaultRecord Memory :=
  match checkWriteRange addr bytes.length with
  | .error k => .error k
  | .ok () => .ok (m.writeBytes addr bytes)

/-! ## Registers (R10, R12, R17) -/

/-- `V[x]`. -/
def State.reg (s : State) (x : RegIdx) : Byte := s.V[x]

/-- `V[x] <- v`. -/
def State.setReg (s : State) (x : RegIdx) (v : Byte) : State := { s with V := s.V.set x v }

/-- `V[k] <- b[k]` for k from 0 to the end of the list (`Fx65`, R117). -/
def State.loadRegs (s : State) (bytes : List Byte) : State :=
  { s with V := Vector.ofFn fun r : Fin 16 => (bytes[r.val]?).getD (s.reg r) }

/-- `V[0] .. V[x]` in order (`Fx55`, R116). -/
def State.regsUpTo (s : State) (x : RegIdx) : List Byte := s.V.toList.take (x.val + 1)

/-- `I <- v`. -/
def State.setI (s : State) (v : Word) : State := { s with I := v }

/-- `DT <- v`. -/
def State.setDT (s : State) (v : Byte) : State := { s with DT := v }

/-- `ST <- v`. -/
def State.setST (s : State) (v : Byte) : State := { s with ST := v }

/-- The memory bank after an instruction's stores. -/
def State.setMem (s : State) (m : Memory) : State := { s with mem := m }

/-- The framebuffer after an instruction's drawing. -/
def State.setFb (s : State) (fb : Framebuffer) : State := { s with fb := fb }

/-- One random byte consumed (R104). -/
def State.nextDraw (s : State) : State := { s with draws := s.draws + 1 }

/-! ## Call stack (R16) -/

/-- Push: `stack[SP] <- v; SP <- SP + 1`, only when SP < 16. -/
def State.push (s : State) (v : Word) : Except FaultRecord State :=
  if h : s.SP.val < 16 then
    .ok { s with stack := s.stack.set s.SP.val v, SP := ⟨s.SP.val + 1, by omega⟩ }
  else .error (.stackOverflow s.SP.val)

/-- Pop: `SP <- SP - 1; result = stack[SP]`, only when SP > 0. The entry keeps its old value and is dead. -/
def State.pop (s : State) : Except FaultRecord (Word × State) :=
  if h : 0 < s.SP.val then
    .ok (s.stack[s.SP.val - 1]'(by omega), { s with SP := ⟨s.SP.val - 1, by omega⟩ })
  else .error (.stackUnderflow s.SP.val)

/-! ## Framebuffer (R18, R127) -/

/-- `fb[r][c]`. -/
def pixel (fb : Framebuffer) (r : Row) (c : Col) : Bool := (fb[r])[c]

/-- `fb[r][c] <- fb[r][c] ^ 1`. -/
def togglePixel (fb : Framebuffer) (rc : Row × Col) : Framebuffer :=
  fb.set rc.1 ((fb[rc.1]).set rc.2 (!pixel fb rc.1 rc.2))

/-- Every pixel off (R126). -/
def clearFb : Framebuffer := Vector.replicate 32 (Vector.replicate 64 false)

/-- The pixels one sprite row's 1 bits fall on: bit 7 of the byte is the leftmost pixel, columns wrap modulo 64
(R127, R128; decisions D18, D19, log entry 16). -/
def rowCells (x0 : Nat) (r : Row) (b : Byte) : List (Row × Col) :=
  (List.range 8).filterMap fun j => if b.getLsbD (7 - j) then some (r, Fin.ofNat 64 (x0 + j)) else none

/-- The pixels a sprite's 1 bits fall on, row by row from the top, rows wrapping modulo 32 (R127, R128). -/
def spriteCells (x0 : Nat) : Nat → List Byte → List (Row × Col)
  | _, [] => []
  | y0, b :: bs => rowCells x0 (Fin.ofNat 32 y0) b ++ spriteCells x0 (y0 + 1) bs

/-- `hit`: some sprite bit that is 1 falls on a pixel that was on before the instruction (R127). -/
def spriteHit (fb : Framebuffer) (cells : List (Row × Col)) : Bool := cells.any fun rc => pixel fb rc.1 rc.2

/-- The framebuffer with every listed pixel toggled (R127). -/
def drawCells (fb : Framebuffer) (cells : List (Row × Col)) : Framebuffer := cells.foldl togglePixel fb

/-! ## Keypad (R141) -/

/-- `KeyScan()`: the first pressed key in the order of `KEY_PRIORITY`, or none (R141; log entry 10). -/
def keyScan (priority : List KeyIdx) (key : Vector Bool 16) : Option KeyIdx := priority.find? fun k => key[k]

/-! ## Taking a fault (R151, R152), and the one write of pc (R14, R72) -/

/-- The numeric code of a record's kind (R150; decision D7, log entry 1). No rule reads a code. -/
def FaultRecord.code : FaultRecord → Nat
  | .unknownOpcode _ _ => 1
  | .stackOverflow _ => 2
  | .stackUnderflow _ => 3
  | .memoryAccessError _ => 4
  | .keyIndexError _ => 5

/-- The code of what the latch holds, 0 for `None` (R150), as a host that takes a `READ` sees it (R27). -/
def faultCode : Option FaultRecord → Nat
  | none => 0
  | some k => k.code

/-- `raise K(info)` (R151): the event stops, nothing it would have written is written, `FAULT <- K(info)`. This is the
whole of taking an exception here: no handler, no vector, no saved status, pc unchanged (R161). There is no return
from it; only `RESET` clears the latch (R160). A NEXT state: log entry 1. -/
def raise (k : FaultRecord) (s : State) : Host.Outcome State Fault Refusal := .next { s with FAULT := some k }

/-- The range check of `SetPc(t)` (R14; decision D3, log entry 11): t is the exact target, not yet reduced to 16 bits. -/
def checkPc (t : Nat) : Except FaultRecord Word :=
  if t < 0x200 ∨ t > 0xFFF then .error (.memoryAccessError t) else .ok (BitVec.ofNat 16 t)

/-- The end of every instruction that writes pc (R72, R159): `s` is the state the `STEP` began in, `effect` the state
with every other write made. The range check of the new pc comes last; if it fails nothing of `effect` is kept. -/
def finish (t : Nat) (effect s : State) : Host.Outcome State Fault Refusal :=
  match checkPc t with
  | .error k => raise k s
  | .ok p => .next { effect with pc := p }

/-- The sequential advance `pc <- pc + 2` around an instruction's other writes (R72). -/
def advance (effect s : State) : Host.Outcome State Fault Refusal := finish (s.pc.toNat + 2) effect s

end Sys2Proof.Machine
end

