-- ==== Sys2Proof/Machine/Operands.lean ====
section
/-! DEFINITION. The operand forms: effective addresses (spec/42_index_memory.md R112), the glyph address (R113), the
decimal digits (R114), jump and skip targets (spec/40_step_and_flow.md R72, R81), the sprite position
(spec/43_display.md R127), the key index (spec/44_keypad_timers.md R137) and the index register after a bulk transfer
(R112). -/

namespace Sys2Proof.Machine

/-- `EA(k) = I + k`, an exact integer, no wrap (R38, R112). -/
def effectiveAddress (s : State) (k : Nat) : Nat := s.I.toNat + k

/-- `0x0050 + 5 * Vx` on all 8 bits of Vx (R113; decision D16, log entry 15). -/
def glyphAddress (v : Byte) : Word := BitVec.ofNat 16 (Config.fontBase + 5 * v.toNat)

/-- The decimal digits of a byte: hundreds, tens, ones (R114). -/
def bcdDigits (v : Byte) : List Byte :=
  [BitVec.ofNat 8 (v.toNat / 100), BitVec.ofNat 8 (v.toNat / 10 % 10), BitVec.ofNat 8 (v.toNat % 10)]

/-- The target of a conditional skip: pc + 4 if the condition holds, else pc + 2 (R72). -/
def skipTarget (s : State) (cond : Bool) : Nat := s.pc.toNat + (if cond then 4 else 2)

/-- The start column of a sprite, `Vx mod 64` (R127). -/
def spriteX (v : Byte) : Nat := v.toNat % 64

/-- The start row of a sprite, `Vy mod 32` (R127; spec/90_conflicts.md C5). -/
def spriteY (v : Byte) : Nat := v.toNat % 32

/-- The key that Vx names for `Ex9E`, `ExA1`, under either setting of `KEY_INDEX_POLICY` (R137). -/
def keyIndex (policy : Config.KeyIndexPolicy) (v : Byte) : Except FaultRecord KeyIdx :=
  if v.toNat > 0x0F then
    match policy with
    | .fault => .error (.keyIndexError v)
    | .mask => .ok (Fin.ofNat 16 v.toNat)
  else .ok (Fin.ofNat 16 v.toNat)

/-- I after `Fx55`/`Fx65` moved `n` bytes, under either setting of `LOADSTORE_INCREMENTS_I` (R112, decision D17). -/
def indexAfterTransfer (increments : Bool) (i : Word) (n : Nat) : Word := if increments then i + BitVec.ofNat 16 n else i

/-- The random byte of this `STEP` (R104, log entry 3). -/
def randomOperand (s : State) : Byte := Config.randomByte s.draws

end Sys2Proof.Machine
end

