-- ==== Sys2Proof/Machine/Alu.lean ====
section
/-! DEFINITION. Register load, arithmetic, logic, shift and random (spec/41_alu.md R90 to R104). Operands are read from
the state the `STEP` began in; the result goes to Vx, then the flag to VF, so with x = 15 the flag is what VF holds
(R102; decision D13, log entry 14). -/

namespace Sys2Proof.Machine

/-- The shared end of a flag-writing instruction: result to Vx, flag to VF last, pc + 2 (R102). -/
def writeResultThenFlag (x : RegIdx) (result flag : Byte) (s : State) : Host.Outcome State Fault Refusal :=
  advance ((s.setReg x result).setReg 15 flag) s

/-- `LD Vx, nn` (R90). -/
def execLdImm (x : RegIdx) (nn : Byte) (s : State) : Host.Outcome State Fault Refusal := advance (s.setReg x nn) s

/-- `ADD Vx, nn` (R91): wraps, no flag. -/
def execAddImm (x : RegIdx) (nn : Byte) (s : State) : Host.Outcome State Fault Refusal :=
  advance (s.setReg x (s.reg x + nn)) s

/-- `LD Vx, Vy` (R92). -/
def execLdReg (x y : RegIdx) (s : State) : Host.Outcome State Fault Refusal := advance (s.setReg x (s.reg y)) s

/-- `OR Vx, Vy` (R93): VF is not written (decision D14). -/
def execOrReg (x y : RegIdx) (s : State) : Host.Outcome State Fault Refusal :=
  advance (s.setReg x (s.reg x ||| s.reg y)) s

/-- `AND Vx, Vy` (R94): VF is not written (decision D14). -/
def execAndReg (x y : RegIdx) (s : State) : Host.Outcome State Fault Refusal :=
  advance (s.setReg x (s.reg x &&& s.reg y)) s

/-- `XOR Vx, Vy` (R95): VF is not written (decision D14). -/
def execXorReg (x y : RegIdx) (s : State) : Host.Outcome State Fault Refusal :=
  advance (s.setReg x (s.reg x ^^^ s.reg y)) s

/-- `ADD Vx, Vy` (R96): VF = carry. -/
def execAddReg (x y : RegIdx) (s : State) : Host.Outcome State Fault Refusal :=
  writeResultThenFlag x (s.reg x + s.reg y) (carryFlag (s.reg x) (s.reg y)) s

/-- `SUB Vx, Vy` (R97): VF = NOT borrow of Vx - Vy. -/
def execSubReg (x y : RegIdx) (s : State) : Host.Outcome State Fault Refusal :=
  writeResultThenFlag x (s.reg x - s.reg y) (notBorrowFlag (s.reg x) (s.reg y)) s

/-- `SHR Vx, Vy` (R98, R103): the operand is Vy, the distance 1, VF = its old bit 0. -/
def execShrReg (x y : RegIdx) (s : State) : Host.Outcome State Fault Refusal :=
  writeResultThenFlag x (s.reg y >>> 1) (shiftedOutRight (s.reg y)) s

/-- `SUBN Vx, Vy` (R99): VF = NOT borrow of Vy - Vx. -/
def execSubnReg (x y : RegIdx) (s : State) : Host.Outcome State Fault Refusal :=
  writeResultThenFlag x (s.reg y - s.reg x) (notBorrowFlag (s.reg y) (s.reg x)) s

/-- `SHL Vx, Vy` (R100, R103): the operand is Vy, the distance 1, VF = its old bit 7. -/
def execShlReg (x y : RegIdx) (s : State) : Host.Outcome State Fault Refusal :=
  writeResultThenFlag x (s.reg y <<< 1) (shiftedOutLeft (s.reg y)) s

/-- `RND Vx, nn` (R104): the `STEP`'s random byte masked with nn; the byte is consumed by this instruction alone. -/
def execRnd (x : RegIdx) (nn : Byte) (s : State) : Host.Outcome State Fault Refusal :=
  advance ((s.setReg x (randomOperand s &&& nn)).nextDraw) s

end Sys2Proof.Machine
end

