-- ==== Sys2Proof/Machine/Control.lean ====
section
/-! DEFINITION. The control-transfer instructions (spec/40_step_and_flow.md R74 to R81). Targets are exact integers and
are range-checked when pc is written (R72, spec/10_state.md R14). -/

namespace Sys2Proof.Machine

/-- `RET` (R74): pop the call stack into pc; the underflow check comes before the range check of the target. -/
def execRet (s : State) : Host.Outcome State Fault Refusal :=
  match s.pop with
  | .error k => raise k s
  | .ok (t, s') => finish t.toNat s' s

/-- `JP nnn` (R75). -/
def execJp (nnn : BitVec 12) (s : State) : Host.Outcome State Fault Refusal := finish nnn.toNat s s

/-- `CALL nnn` (R76): push pc + 2 (not range-checked when pushed, decision D31), then jump; the overflow check comes
before the range check of the target (R159). -/
def execCall (nnn : BitVec 12) (s : State) : Host.Outcome State Fault Refusal :=
  match s.push (BitVec.ofNat 16 (s.pc.toNat + 2)) with
  | .error k => raise k s
  | .ok s' => finish nnn.toNat s' s

/-- `SE Vx, nn` (R77). -/
def execSeImm (x : RegIdx) (nn : Byte) (s : State) : Host.Outcome State Fault Refusal :=
  finish (skipTarget s (s.reg x == nn)) s s

/-- `SNE Vx, nn` (R78). -/
def execSneImm (x : RegIdx) (nn : Byte) (s : State) : Host.Outcome State Fault Refusal :=
  finish (skipTarget s (s.reg x != nn)) s s

/-- `SE Vx, Vy` (R79). -/
def execSeReg (x y : RegIdx) (s : State) : Host.Outcome State Fault Refusal :=
  finish (skipTarget s (s.reg x == s.reg y)) s s

/-- `SNE Vx, Vy` (R80). -/
def execSneReg (x y : RegIdx) (s : State) : Host.Outcome State Fault Refusal :=
  finish (skipTarget s (s.reg x != s.reg y)) s s

/-- `JP V0, nnn` (R81): the sum is not reduced modulo 4096. -/
def execJpV0 (nnn : BitVec 12) (s : State) : Host.Outcome State Fault Refusal :=
  finish (nnn.toNat + (s.reg 0).toNat) s s

end Sys2Proof.Machine
end

