-- ==== Sys2Proof/Machine/Display.lean ====
section
/-! DEFINITION. The framebuffer instructions (spec/43_display.md R126 to R130). -/

namespace Sys2Proof.Machine

/-- `CLS` (R126): every pixel off; VF is not written (decision D14). -/
def execCls (s : State) : Host.Outcome State Fault Refusal := advance (s.setFb clearFb) s

/-- `DRW Vx, Vy, n` (R127, R128, R130): the sprite's n bytes are read from I.. (none when n = 0, and then no memory
fault can occur), its 1 bits toggle their pixels with every pixel wrapping, VF = collision, written last. -/
def execDrw (x y : RegIdx) (n : BitVec 4) (s : State) : Host.Outcome State Fault Refusal :=
  match readRange s.mem (effectiveAddress s 0) n.toNat with
  | .error k => raise k s
  | .ok rows =>
    let cells := spriteCells (spriteX (s.reg x)) (spriteY (s.reg y)) rows
    advance ((s.setFb (drawCells s.fb cells)).setReg 15 (flagByte (spriteHit s.fb cells))) s

end Sys2Proof.Machine
end

