-- ==== Sys2Proof/Machine/IndexMemory.lean ====
section
/-! DEFINITION. The address register and the data moves between registers and memory (spec/42_index_memory.md R110 to
R117). Every check, the data addresses' in ascending order and then the new pc's, precedes every write
(spec/60_exceptions.md R152, R159). -/

namespace Sys2Proof.Machine

/-- `LD I, nnn` (R110). -/
def execLdI (nnn : BitVec 12) (s : State) : Host.Outcome State Fault Refusal := advance (s.setI (nnn.setWidth 16)) s

/-- `ADD I, Vx` (R111): modulo 65536, no flag (decisions D14, D15; log entries 14, 15). -/
def execAddI (x : RegIdx) (s : State) : Host.Outcome State Fault Refusal :=
  advance (s.setI (s.I + (s.reg x).setWidth 16)) s

/-- `LD F, Vx` (R113). -/
def execLdF (x : RegIdx) (s : State) : Host.Outcome State Fault Refusal := advance (s.setI (glyphAddress (s.reg x))) s

/-- `LD B, Vx` (R114): three digits to I, I+1, I+2, all or none. -/
def execLdB (x : RegIdx) (s : State) : Host.Outcome State Fault Refusal :=
  match storeBytes s.mem (effectiveAddress s 0) (bcdDigits (s.reg x)) with
  | .error k => raise k s
  | .ok m => advance (s.setMem m) s

/-- `LD [I], Vx` (R116): V0..Vx to I.., all or none; I changes only under `LOADSTORE_INCREMENTS_I`. -/
def execStoreRegs (x : RegIdx) (s : State) : Host.Outcome State Fault Refusal :=
  match storeBytes s.mem (effectiveAddress s 0) (s.regsUpTo x) with
  | .error k => raise k s
  | .ok m => advance ((s.setMem m).setI (indexAfterTransfer Config.loadStoreIncrementsI s.I (x.val + 1))) s

/-- `LD Vx, [I]` (R117): V0..Vx from I.., all or none; loads from the font region are legal. -/
def execLoadRegs (x : RegIdx) (s : State) : Host.Outcome State Fault Refusal :=
  match readRange s.mem (effectiveAddress s 0) (x.val + 1) with
  | .error k => raise k s
  | .ok bytes =>
    advance ((s.loadRegs bytes).setI (indexAfterTransfer Config.loadStoreIncrementsI s.I (x.val + 1))) s

end Sys2Proof.Machine
end

