-- ==== Sys2Proof/Machine/KeypadTimers.lean ====
section
/-! DEFINITION. The keypad and timer instructions (spec/44_keypad_timers.md R135 to R143) and the wait poll of `Fx0A`
(R140). -/

namespace Sys2Proof.Machine

/-- `SKP Vx` (R135): skip if key Vx is pressed; the key index is checked first (R137, R159). -/
def execSkp (x : RegIdx) (s : State) : Host.Outcome State Fault Refusal :=
  match keyIndex Config.keyIndexPolicy (s.reg x) with
  | .error k => raise k s
  | .ok j => finish (skipTarget s (s.key[j])) s s

/-- `SKNP Vx` (R136): skip if key Vx is not pressed. -/
def execSknp (x : RegIdx) (s : State) : Host.Outcome State Fault Refusal :=
  match keyIndex Config.keyIndexPolicy (s.reg x) with
  | .error k => raise k s
  | .ok j => finish (skipTarget s (!s.key[j])) s s

/-- `LD Vx, DT` (R138). -/
def execLdVxDT (x : RegIdx) (s : State) : Host.Outcome State Fault Refusal := advance (s.setReg x s.DT) s

/-- `LD Vx, K` (R139): only enters the wait. pc is not written, no key is read, nothing can fault (decision D23, log
entry 17). `pollWait` carries out the rest. -/
def execLdVxK (x : RegIdx) (s : State) : Host.Outcome State Fault Refusal := .next { s with WAIT := true, WAITX := x }

/-- `LD DT, Vx` (R142). -/
def execLdDTVx (x : RegIdx) (s : State) : Host.Outcome State Fault Refusal := advance (s.setDT (s.reg x)) s

/-- `LD ST, Vx` (R143). -/
def execLdSTVx (x : RegIdx) (s : State) : Host.Outcome State Fault Refusal := advance (s.setST (s.reg x)) s

/-- The wait poll (R140, R141): what a `STEP` does while WAIT = 1. No fetch; with no key down nothing changes; with one
down its index goes to V[WAITX], the wait ends and pc moves on, through the range check like every write of pc (R14;
log entry 22). The key flag is not cleared (decision D25). -/
def pollWait (s : State) : Host.Outcome State Fault Refusal :=
  match keyScan Config.keyPriority s.key with
  | none => .next s
  | some k => advance { s.setReg s.WAITX (BitVec.ofNat 8 k.val) with WAIT := false } s

end Sys2Proof.Machine
end

