-- ==== Sys2Proof/Machine/Cycle.lean ====
section
/-! DEFINITION. The events (spec/00_scope.md R3): `STEP` (spec/40_step_and_flow.md R70), `TICK` and `SET_KEY`
(spec/44_keypad_timers.md R145, R146), `READ` (spec/43_display.md R131) and `RESET` (spec/70_reset_and_hazards.md R180),
each a whole and atomic. -/

namespace Sys2Proof.Machine

/-- Fetch (R71): the big-endian word at pc, pc + 1; no side effect. -/
def fetch (s : State) : Except FaultRecord Word := memRead2 s.mem s.pc.toNat

/-- Stages 4 and 5 of `STEP` (R70): decode, then execute; an illegal word raises `UnknownOpcode` with the address it was
fetched from and the word (R58, R153). -/
def decodeAndExecute (op : Word) (s : State) : Host.Outcome State Fault Refusal :=
  match decode op with
  | .error _ => raise (.unknownOpcode s.pc op) s
  | .ok i => exec i s

/-- `STEP` (R70): nothing while halted (R160), the poll while waiting (R140), else fetch, decode and execute. -/
def stepEvent (s : State) : Host.Outcome State Fault Refusal :=
  if s.FAULT.isSome then .next s
  else if s.WAIT then pollWait s
  else
    match fetch s with
    | .error k => raise k s
    | .ok op => decodeAndExecute op s

/-- `DT - 1`, clamped at 0 (R145). -/
def countDown (t : Byte) : Byte := if t = 0x00#8 then 0x00#8 else t - 0x01#8

/-- `TICK` (R145): both timers, in whatever condition the core is (decision D6, log entry 24). -/
def tickEvent (s : State) : State := { s with DT := countDown s.DT, ST := countDown s.ST }

/-- `SET_KEY` (R146): one flag; an index above 15 is rejected with no change (decision D33, log entry 23). -/
def setKeyEvent (index : Nat) (pressed : Bool) (s : State) : State :=
  if h : index < 16 then { s with key := s.key.set index pressed } else s

/-- The memory bank a `RESET` builds: the background (R34, R35), then the ROM verbatim from 0x200 (R33). -/
def romImage (rom : List Byte) : Memory := Memory.writeBytes [] Config.progBase rom

/-- `RESET(rom)` (R180, R182): a ROM over 3584 bytes is refused and no machine exists; otherwise the whole state is
constructed anew. The host's own order of events and its supply of random bytes are not the machine's and go on (log
entry 21). -/
def resetEvent (rom : List Byte) (s : State) : Host.Outcome State Fault Refusal :=
  if wellFormedRom rom then
    .next { State.reset with mem := romImage rom, draws := s.draws, schedule := s.schedule }
  else .fault (.loadError rom.length)

/-- One event, whole (R3). -/
def runEvent (e : Event) (s : State) : Host.Outcome State Fault Refusal :=
  match e with
  | .step => stepEvent s
  | .tick => .next (tickEvent s)
  | .setKey index pressed => .next (setKeyEvent index pressed s)
  | .read => .next s
  | .reset rom => resetEvent rom s

/-- The event the host's schedule names next; with the schedule empty, a `STEP` (log entry 2). -/
def nextEvent (s : State) : Event :=
  match s.schedule with
  | [] => .step
  | e :: _ => e

/-- The state with the next event taken off the schedule. -/
def takeEvent (s : State) : State := { s with schedule := s.schedule.tail }

/-- Where the next fetch will be made once nothing stands in its way: pc, or the entry point where pc leaves no room for
a word (only a state no run reaches has such a pc, but for 0xFFF). -/
def fetchPlace (s : State) : Nat := if s.pc.toNat ≤ 0xFFE then s.pc.toNat else Config.progBase

/-- The state whose very next step fetches and runs the two bytes of `op`: they are placed as a load places them (no
font check), the core is neither halted nor waiting, and no other event comes first (log entry 7). -/
def placeWord (s : State) (op : Word) : State :=
  { s with
    mem := s.mem.writeBytes (fetchPlace s) (wordBytes op)
    pc := BitVec.ofNat 16 (fetchPlace s)
    FAULT := none
    WAIT := false
    schedule := [] }

end Sys2Proof.Machine
end

