-- ==== Sys2Proof/Machine/Step.lean ====
section
/-! DEFINITION. One step of the machine: the next event of the host's schedule, performed whole
(spec/00_scope.md R3; log entry 2). With the schedule empty it is the core's `STEP` (spec/40_step_and_flow.md R70). -/

namespace Sys2Proof.Machine

/-- One step: the next event on the state without it. -/
def step (s : State) : Host.Outcome State Fault Refusal := runEvent (nextEvent s) (takeEvent s)

/-- `s` with the instruction of `nbits` bits `w` stored where `step` fetches its next one (log entry 7). -/
def State.withFetchWord (s : State) (nbits w : Nat) : State := placeWord s (tableWord nbits w)

end Sys2Proof.Machine
end

