-- ==== Sys2Proof/Safety.lean ====
section
/-! DEFINITION. What claims about the machine are said in: when the core runs, waits, is halted or has finished; the
parts of the state and when a part is unchanged; which parts each instruction may write (spec/10_state.md R26); and the
invariant every event keeps. -/

namespace Sys2Proof.Machine

/-! ## Conditions of the core -/

/-- Halted: FAULT is not `None` (spec/60_exceptions.md R160). A halted state is a fault outcome, never a successful end
(log entry 1). -/
abbrev State.Halted (s : State) : Prop := s.FAULT.isSome = true

/-- The core will fetch at its next `STEP`: neither halted nor waiting (spec/40_step_and_flow.md R70). -/
abbrev State.Running (s : State) : Prop := s.FAULT = none ∧ s.WAIT = false

/-- The next event is a `STEP` (log entry 2). -/
abbrev State.StepIsNext (s : State) : Prop := nextEvent s = .step

/-- `pc + d` is a target `SetPc` accepts (spec/10_state.md R14). -/
abbrev State.CanAdvance (s : State) (d : Nat) : Prop := 0x200 ≤ s.pc.toNat + d ∧ s.pc.toNat + d ≤ 0xFFF

/-- `t` is a target `SetPc` accepts (spec/10_state.md R14). -/
abbrev ValidTarget (t : Nat) : Prop := 0x200 ≤ t ∧ t ≤ 0xFFF

/-- A byte that may be stored to: inside the bank and outside the font (spec/20_memory.md R37). -/
abbrev Writable (a : Nat) : Prop := a ≤ 0xFFF ∧ ¬ (0x050 ≤ a ∧ a ≤ 0x09F)

/-- The bytes at `a` and `a + 1` as a big-endian word (spec/20_memory.md R39). -/
def wordAt (m : Memory) (a : Nat) : Word := bytesToWord (m.read a) (m.read (a + 1))

/-- The end of a program: not halted, not waiting, and pc at a `1nnn` that jumps to itself. DESIGN CHOICE, the one R189
(spec/70_reset_and_hazards.md, decision D28) suggests; log entry 28. -/
def State.Finished (s : State) : Prop :=
  s.Running ∧ s.pc.toNat ≤ 0xFFE ∧ ∃ nnn : BitVec 12, decode (wordAt s.mem s.pc.toNat) = .ok (.jp nnn) ∧
    nnn.toNat = s.pc.toNat

/-- A step that ends neither the run nor in a halted state. -/
def StepSafe (s : State) : Prop := ∃ t, step s = .next t ∧ t.FAULT = none

/-- Some bit that is 1 of the sprite `Dxyn` draws falls on pixel (row r, column c): bit 7 - j of the byte at I + k,
k < n, at column (Vx mod 64 + j) mod 64 and row (Vy mod 32 + k) mod 32 (spec/43_display.md R127, R128). -/
def SpriteBitOn (s : State) (x y : RegIdx) (n : Nat) (r : Row) (c : Col) : Prop :=
  ∃ k j : Nat, k < n ∧ j < 8 ∧ (s.mem.read (effectiveAddress s k)).getLsbD (7 - j) = true ∧
    c.val = ((s.reg x).toNat % 64 + j) % 64 ∧ r.val = ((s.reg y).toNat % 32 + k) % 32

/-- The instructions whose only check is that of the sequential advance (spec/40_step_and_flow.md R72; spec/41_alu.md;
spec/42_index_memory.md R110, R111, R113; spec/43_display.md R126; spec/44_keypad_timers.md R138, R142, R143). -/
def onlyAdvances : Instr → Bool
  | .cls | .ldImm _ _ | .addImm _ _ | .ldReg _ _ | .orReg _ _ | .andReg _ _ | .xorReg _ _ | .addReg _ _ | .subReg _ _
  | .shrReg _ _ | .subnReg _ _ | .shlReg _ _ | .ldI _ | .rnd _ _ | .ldVxDT _ | .ldDTVx _ | .ldSTVx _ | .addI _
  | .ldF _ => true
  | .ret | .jp _ | .call _ | .seImm _ _ | .sneImm _ _ | .seReg _ _ | .sneReg _ _ | .jpV0 _ | .drw _ _ _ | .skp _
  | .sknp _ | .ldVxK _ | .ldB _ | .storeRegs _ | .loadRegs _ => false

/-- The data accesses of an instruction all pass their checks (spec/20_memory.md R41): stores to writable bytes, loads
inside the bank; true of an instruction that touches no data byte. -/
def dataAccessible (s : State) : Instr → Prop
  | .drw _ _ n => ∀ k, k < n.toNat → effectiveAddress s k ≤ 0xFFF
  | .ldB _ => ∀ k, k < 3 → Writable (effectiveAddress s k)
  | .storeRegs x => ∀ k, k ≤ x.val → Writable (effectiveAddress s k)
  | .loadRegs x => ∀ k, k ≤ x.val → effectiveAddress s k ≤ 0xFFF
  | .cls | .ret | .jp _ | .call _ | .seImm _ _ | .sneImm _ _ | .seReg _ _ | .ldImm _ _ | .addImm _ _ | .ldReg _ _
  | .orReg _ _ | .andReg _ _ | .xorReg _ _ | .addReg _ _ | .subReg _ _ | .shrReg _ _ | .subnReg _ _ | .shlReg _ _
  | .sneReg _ _ | .ldI _ | .jpV0 _ | .rnd _ _ | .skp _ | .sknp _ | .ldVxDT _ | .ldVxK _ | .ldDTVx _ | .ldSTVx _
  | .addI _ | .ldF _ => True

/-! ## Parts of the state and frames -/

/-- A piece of state small enough that an instruction either may write it or may not. -/
inductive Part where
  | reg (r : RegIdx)
  | index
  | pc
  | stackEntry (k : Fin 16)
  | sp
  | dt
  | st
  | pixel (r : Row) (c : Col)
  | keyFlag (k : KeyIdx)
  | wait
  | waitX
  | fault
  | byte (a : Nat)
  | draws
  | schedule
  deriving DecidableEq, Repr

/-- The part holds the same in both states; for memory, reading the byte gives the same. -/
def Part.same (s t : State) : Part → Prop
  | .reg r => t.reg r = s.reg r
  | .index => t.I = s.I
  | .pc => t.pc = s.pc
  | .stackEntry k => t.stack[k] = s.stack[k]
  | .sp => t.SP = s.SP
  | .dt => t.DT = s.DT
  | .st => t.ST = s.ST
  | .pixel r c => Machine.pixel t.fb r c = Machine.pixel s.fb r c
  | .keyFlag k => t.key[k] = s.key[k]
  | .wait => t.WAIT = s.WAIT
  | .waitX => t.WAITX = s.WAITX
  | .fault => t.FAULT = s.FAULT
  | .byte a => t.mem.read a = s.mem.read a
  | .draws => t.draws = s.draws
  | .schedule => t.schedule = s.schedule

/-- Everything outside the described parts is unchanged from `s` to `t`. -/
def UnchangedOutside (may : Part → Prop) (s t : State) : Prop := ∀ p, ¬ may p → p.same s t

/-- Everything but the listed parts is unchanged from `s` to `t`. -/
def UnchangedBut (parts : List Part) (s t : State) : Prop := UnchangedOutside (fun p => p ∈ parts) s t

/-- `t` is `s` with a fault latched and nothing else changed (spec/60_exceptions.md R151, R152). -/
def LatchesOnly (k : FaultRecord) (s t : State) : Prop := t.FAULT = some k ∧ UnchangedBut [.fault] s t

/-- The parts an instruction may write when it completes: the table of spec/10_state.md R26, with pc (R26's first
sentence and R14) and the model's own `draws` for `Cxnn` (R104). FAULT is in no row: a fault that is raised writes
nothing else (R152). -/
def mayWrite (s : State) (i : Instr) (p : Part) : Prop :=
  match i with
  | .cls => p = .pc ∨ ∃ r c, p = .pixel r c
  | .ret => p = .pc ∨ p = .sp
  | .jp _ | .jpV0 _ => p = .pc
  | .call _ => p = .pc ∨ p = .sp ∨ ∃ k : Fin 16, k.val = s.SP.val ∧ p = .stackEntry k
  | .seImm _ _ | .sneImm _ _ | .seReg _ _ | .sneReg _ _ | .skp _ | .sknp _ => p = .pc
  | .ldImm x _ | .addImm x _ | .ldReg x _ | .orReg x _ | .andReg x _ | .xorReg x _ | .ldVxDT x => p = .pc ∨ p = .reg x
  | .addReg x _ | .subReg x _ | .shrReg x _ | .subnReg x _ | .shlReg x _ => p = .pc ∨ p = .reg x ∨ p = .reg 15
  | .ldI _ | .addI _ | .ldF _ => p = .pc ∨ p = .index
  | .rnd x _ => p = .pc ∨ p = .reg x ∨ p = .draws
  | .drw _ _ _ => p = .pc ∨ p = .reg 15 ∨ ∃ r c, p = .pixel r c
  | .ldVxK _ => p = .wait ∨ p = .waitX
  | .ldDTVx _ => p = .pc ∨ p = .dt
  | .ldSTVx _ => p = .pc ∨ p = .st
  | .ldB _ => p = .pc ∨ ∃ k, k < 3 ∧ p = .byte (effectiveAddress s k)
  | .storeRegs x => p = .pc ∨ ∃ k, k ≤ x.val ∧ p = .byte (effectiveAddress s k)
  | .loadRegs x => p = .pc ∨ ∃ r : RegIdx, r ≤ x ∧ p = .reg r

/-! ## The invariant -/

/-- The font region reads as `FONT_TABLE`: "never mutated" (spec/20_memory.md R32). -/
abbrev FontIntact (m : Memory) : Prop :=
  ∀ k, k < Config.fontSize → m.read (Config.fontBase + k) = Config.fontTable.getD k Config.memFill

/-- What a latched record says is true of the halted state (spec/60_exceptions.md R150, R152, R154). -/
def FaultRecord.Coherent (s : State) : FaultRecord → Prop
  | .unknownOpcode addr word =>
    addr = s.pc ∧ s.pc.toNat ≤ 0xFFE ∧ word = wordAt s.mem s.pc.toNat ∧ decode word = .error (.illegal word)
  | .stackOverflow depth => depth = 16 ∧ s.SP.val = 16
  | .stackUnderflow depth => depth = 0 ∧ s.SP.val = 0
  | .memoryAccessError addr => (addr < 0x200 ∨ 0xFFF < addr) ∧ addr ≤ 0x1000E
  | .keyIndexError index => 0x0F < index.toNat

/-- The invariant of the machine, kept by every event and true after reset. -/
structure Inv (s : State) : Prop where
  /-- Memory is in its one canonical form. -/
  memWf : s.mem.wf = true
  /-- The font is as loaded (R32). -/
  fontIntact : FontIntact s.mem
  /-- `pc ∈ [0x200, 0xFFF]` (spec/10_state.md R13). -/
  pcRange : 0x200 ≤ s.pc.toNat ∧ s.pc.toNat ≤ 0xFFF
  /-- A live return address follows a `CALL` that was fetched (spec/40_step_and_flow.md R76): 0x202..0x1000. -/
  liveStack : ∀ k : Fin 16, k.val < s.SP.val → 0x202 ≤ (s.stack[k]).toNat ∧ (s.stack[k]).toNat ≤ 0x1000
  /-- While the core waits, pc stands on the `Fx0A` that started the wait, whose x is WAITX (spec/20_memory.md R46). -/
  waitWord : s.WAIT = true → s.pc.toNat ≤ 0xFFE ∧ decode (wordAt s.mem s.pc.toNat) = .ok (.ldVxK s.WAITX)
  /-- A latched fault record says the truth. -/
  faultCoherent : ∀ k, s.FAULT = some k → k.Coherent s

end Sys2Proof.Machine
end

