-- ==== Sys2Proof/Certificates/Slice0/Obligations.lean ====
section
/-! DEFINITION. The statements for the provers. Each docstring names the rule of spec/ it formalises and, where a clause rests
on a decision of the spec's own (a D<n> of spec/92_eei_decisions.md) or on a choice of the model, says so and names
the log entry. A frame is said part by part (`Part`, `UnchangedBut`, `UnchangedOutside` of Sys2Proof/Safety.lean): every
register, flag, special register, stack entry, pixel, key, timer and byte of memory. -/

open Sys2Proof Sys2Proof.Machine

/-! ## Encoding (spec/30_encoding.md) -/

/-- R52 to R56: decoding the word of any instruction gives it back, every operand at every value. -/
def Obligations.DecodeOfEncodeIsTheInstruction : Prop :=
  ∀ i : Instr, decode (encode i) = .ok i

/-- R55: a word that decodes to an instruction is that instruction's word; no bit of it is ignored. -/
def Obligations.EncodeOfDecodeIsTheWord : Prop :=
  ∀ (w : Word) (i : Instr), decode w = .ok i → encode i = w

/-- R55, R56: a word decodes to the instruction of the ONE row with `(w & mask) = match`, and is illegal exactly when no
row covers it. The exactness of the match is the spec's decision D1 (log entry 18). -/
def Obligations.DecodeFollowsTheOpcodeTable : Prop :=
  ∀ w : Word,
    (∃ i, decode w = .ok i ∧ i.row ∈ opcodeTable ∧ i.row.covers w = true ∧
      ∀ r ∈ opcodeTable, r.covers w = true → r = i.row) ∨
    (decode w = .error (.illegal w) ∧ ∀ r ∈ opcodeTable, r.covers w = false)

/-- R58's table (the families, not the counts): the illegal words. Exact matching is decision D1 (log entry 18), the
unused sub-opcodes of family 8 decision D2. -/
def Obligations.IllegalWordsAreTheListedFamilies : Prop :=
  ∀ w : Word, decode w = .error (.illegal w) ↔
    (w.toNat / 4096 = 0x0 ∧ w ≠ 0x00E0#16 ∧ w ≠ 0x00EE#16) ∨
    (w.toNat / 4096 = 0x5 ∧ w.toNat % 16 ≠ 0) ∨
    (w.toNat / 4096 = 0x8 ∧ w.toNat % 16 ∈ [0x8, 0x9, 0xA, 0xB, 0xC, 0xD, 0xF]) ∨
    (w.toNat / 4096 = 0x9 ∧ w.toNat % 16 ≠ 0) ∨
    (w.toNat / 4096 = 0xE ∧ w.toNat % 256 ∉ [0x9E, 0xA1]) ∨
    (w.toNat / 4096 = 0xF ∧ w.toNat % 256 ∉ [0x07, 0x0A, 0x15, 0x18, 0x1E, 0x29, 0x33, 0x55, 0x65])

/-- The field-extraction vectors of spec/95_test_vectors.md 2.6, one word a format, and the source's example 0x8014. -/
def Obligations.SampleWordsDecodeToTheirInstructions : Prop :=
  decode 0x00EE#16 = .ok .ret ∧ decode 0x2ABC#16 = .ok (.call 0xABC#12) ∧
  decode 0x6C7F#16 = .ok (.ldImm 0xC 0x7F#8) ∧ decode 0x8AB4#16 = .ok (.addReg 0xA 0xB) ∧
  decode 0xD12F#16 = .ok (.drw 1 2 15#4) ∧ decode 0xF91E#16 = .ok (.addI 9) ∧ decode 0x8014#16 = .ok (.addReg 0 1)

/-! ## Memory primitives (spec/20_memory.md) -/

/-- R36: MemRead of one and of two bytes: the bounds, which address is reported, the big-endian word; and a read returns
the last byte stored there, whatever was stored elsewhere (that reading changes nothing is `memRead`'s type). -/
def Obligations.MemReadChecksBoundsAndIsBigEndian : Prop :=
  ∀ (m : Memory) (a : Nat),
    (0xFFF < a → memRead m a = .error (.memoryAccessError a) ∧ memRead2 m a = .error (.memoryAccessError a)) ∧
    (a ≤ 0xFFF → memRead m a = .ok (m.read a)) ∧
    (a = 0xFFF → memRead2 m a = .error (.memoryAccessError (a + 1))) ∧
    (a + 1 ≤ 0xFFF → ∃ w, memRead2 m a = .ok w ∧ w.toNat = (m.read a).toNat * 256 + (m.read (a + 1)).toNat) ∧
    (∀ v : Byte, m.wf = true → a ≤ 0xFFF →
      memRead (m.write a v) a = .ok v ∧ ∀ b, b ≠ a → memRead (m.write a v) b = memRead m b)

/-! ## The events (spec/00_scope.md R3, spec/40_step_and_flow.md R70) -/

/-- R70 stages 3 to 5, R71: when the core is to fetch and the two bytes at pc decode to an instruction, the step is `exec`
of that instruction. The step takes its event off the model's own schedule (log entry 2), nothing else. -/
def Obligations.StepRunsTheDecodedInstruction : Prop :=
  ∀ (s : State) (i : Instr), s.StepIsNext → s.Running → s.pc.toNat ≤ 0xFFE →
    decode (wordAt s.mem s.pc.toNat) = .ok i → step s = exec i (takeEvent s)

/-- R153: a fetched word that matches no row of R56 raises `UnknownOpcode` with the address it was fetched from and the
word. -/
def Obligations.UnmatchedWordLatchesUnknownOpcode : Prop :=
  ∀ (s : State) (w : Word), s.StepIsNext → s.Running → s.pc.toNat ≤ 0xFFE → w = wordAt s.mem s.pc.toNat →
    (∀ r ∈ opcodeTable, r.covers w = false) →
    ∃ t, step s = .next t ∧ LatchesOnly (.unknownOpcode s.pc w) (takeEvent s) t

/-- R71: the one fetch fault, at pc = 0xFFF. -/
def Obligations.FetchAtTheLastByteFaults : Prop :=
  ∀ s : State, s.StepIsNext → s.Running → s.pc.toNat = 0xFFF →
    ∃ t, step s = .next t ∧ LatchesOnly (.memoryAccessError 0x1000) (takeEvent s) t

/-- R160: `STEP` changes nothing while FAULT is set (decision D6, log entry 1). -/
def Obligations.HaltedStepChangesNothing : Prop :=
  ∀ s : State, s.StepIsNext → s.Halted → step s = .next (takeEvent s)

/-- R151, R160: the first fault stays recorded until `RESET`, whatever the event. -/
def Obligations.FirstFaultIsKeptUntilReset : Prop :=
  ∀ (s t : State) (k : FaultRecord), s.FAULT = some k → (∀ rom, nextEvent s ≠ .reset rom) → step s = .next t →
    t.FAULT = some k

/-- R140: with no key down a waiting `STEP` changes nothing. -/
def Obligations.WaitingStepWithNoKeyChangesNothing : Prop :=
  ∀ s : State, s.StepIsNext → s.FAULT = none → s.WAIT = true → (∀ k : KeyIdx, s.key[k] = false) →
    step s = .next (takeEvent s)

/-- R140, R141: with a key down the wait ends: the lowest pressed key (decision D24, log entry 10) to V[WAITX], pc on by 2,
no key flag cleared (decision D25). Past 0xFFF it faults instead and goes on waiting (decision D3, log entry 11). -/
def Obligations.WaitEndsWithTheLowestPressedKey : Prop :=
  ∀ (s : State) (k : KeyIdx), s.StepIsNext → s.FAULT = none → s.WAIT = true → s.key[k] = true →
    (∀ j : KeyIdx, j < k → s.key[j] = false) →
    (s.CanAdvance 2 → ∃ t, step s = .next t ∧ (t.reg s.WAITX).toNat = k.val ∧ t.WAIT = false ∧
      t.pc.toNat = s.pc.toNat + 2 ∧ UnchangedBut [.reg s.WAITX, .wait, .pc] (takeEvent s) t) ∧
    (0xFFF < s.pc.toNat + 2 → ∃ t, step s = .next t ∧
      LatchesOnly (.memoryAccessError (s.pc.toNat + 2)) (takeEvent s) t)

/-- R145: `TICK` takes 1 from each timer, clamped at 0, and writes nothing else; whatever the core's condition (decision
D6, log entry 24). -/
def Obligations.TickCountsBothTimersDown : Prop :=
  ∀ s : State, nextEvent s = .tick → ∃ t, step s = .next t ∧ t.DT.toNat = s.DT.toNat - 1 ∧
    t.ST.toNat = s.ST.toNat - 1 ∧ UnchangedBut [.dt, .st] (takeEvent s) t

/-- R146: `SET_KEY` writes one flag and nothing else; an index above 15 changes nothing and is no core fault (decision D33,
log entry 23). -/
def Obligations.SetKeyWritesOneFlag : Prop :=
  ∀ (s : State) (index : Nat) (pressed : Bool), nextEvent s = .setKey index pressed → ∃ t, step s = .next t ∧
    (∀ k : KeyIdx, k.val = index → t.key[k] = pressed ∧ UnchangedBut [.keyFlag k] (takeEvent s) t) ∧
    (15 < index → UnchangedBut [] (takeEvent s) t)

/-- R27, R131: `READ` writes nothing. -/
def Obligations.ReadWritesNothing : Prop :=
  ∀ s : State, nextEvent s = .read → ∃ t, step s = .next t ∧ UnchangedBut [] (takeEvent s) t

/-- R180: what `RESET` with an accepted ROM leaves, from any state: the ROM at 0x200, the font at 0x050, `MEM_FILL`
elsewhere, every other piece at its value of R25 (decisions D6, D9, D10; log entries 4, 5, 6). The last two clauses are
the model's own fields (log entries 2, 3, 21). -/
def Obligations.ResetConstructsTheMachine : Prop :=
  ∀ (s : State) (rom : List Byte), nextEvent s = .reset rom → rom.length ≤ 0xE00 → ∃ t, step s = .next t ∧
    (∀ k, k < rom.length → t.mem.read (0x200 + k) = rom.getD k 0x00#8) ∧
    (∀ k, k < 80 → t.mem.read (0x050 + k) = Config.fontTable.getD k 0x00#8) ∧
    (∀ a, a < 0x1000 → ¬ (0x050 ≤ a ∧ a ≤ 0x09F) → ¬ (0x200 ≤ a ∧ a < 0x200 + rom.length) →
      t.mem.read a = Config.memFill) ∧
    (∀ r : RegIdx, t.reg r = 0x00#8) ∧ t.I = 0x0000#16 ∧ t.pc = 0x0200#16 ∧ t.SP.val = 0 ∧
    (∀ k : Fin 16, t.stack[k] = 0x0000#16) ∧ t.DT = 0x00#8 ∧ t.ST = 0x00#8 ∧
    (∀ (r : Row) (c : Col), pixel t.fb r c = false) ∧ (∀ k : KeyIdx, t.key[k] = false) ∧
    t.WAIT = false ∧ t.WAITX = 0 ∧ t.FAULT = none ∧ t.draws = s.draws ∧ t.schedule = s.schedule.tail

/-- R182, R158: a ROM over 3584 bytes is a load error and no machine exists. -/
def Obligations.OversizedRomIsALoadError : Prop :=
  ∀ (s : State) (rom : List Byte), nextEvent s = .reset rom → 0xE00 < rom.length →
    step s = .fault (.loadError rom.length)

/-- R25: the reset state, memory at its boundaries included (spec/95_test_vectors.md X4; decisions D6, D9, D10; log
entries 1, 4, 5, 6). -/
def Obligations.ResetStateHoldsTheListedValues : Prop :=
  (∀ r : RegIdx, State.reset.reg r = 0x00#8) ∧ State.reset.I = 0x0000#16 ∧ State.reset.pc = 0x0200#16 ∧
  State.reset.SP.val = 0 ∧ State.reset.DT = 0x00#8 ∧ State.reset.ST = 0x00#8 ∧ State.reset.WAIT = false ∧
  State.reset.FAULT = none ∧ (∀ k : KeyIdx, State.reset.key[k] = false) ∧
  State.reset.mem.read 0x04F = 0x00#8 ∧ State.reset.mem.read 0x050 = 0xF0#8 ∧ State.reset.mem.read 0x09F = 0x80#8 ∧
  State.reset.mem.read 0x0A0 = 0x00#8 ∧ State.reset.mem.read 0x200 = 0x00#8

/-! ## Control flow (spec/40_step_and_flow.md) -/

/-- R74: `RET` pops the top entry into pc as it stands. The entry stays in the array, dead (R16). -/
def Obligations.RetPopsTheCallStackIntoPc : Prop :=
  ∀ (s : State) (k : Fin 16), s.SP.val = k.val + 1 → ValidTarget (s.stack[k]).toNat →
    ∃ t, exec .ret s = .next t ∧ t.pc = s.stack[k] ∧ t.SP.val = k.val ∧ UnchangedBut [.pc, .sp] s t

/-- R156: `00EE` with SP = 0. -/
def Obligations.RetOnAnEmptyStackUnderflows : Prop :=
  ∀ s : State, s.SP.val = 0 → ∃ t, exec .ret s = .next t ∧ LatchesOnly (.stackUnderflow 0) s t

/-- R76: `CALL` pushes the address after itself and jumps. The pushed value is not range-checked (decision D31). -/
def Obligations.CallPushesTheReturnAddress : Prop :=
  ∀ (s : State) (nnn : BitVec 12) (k : Fin 16), s.SP.val = k.val → 0x200 ≤ nnn.toNat →
    ∃ t, exec (.call nnn) s = .next t ∧ (t.stack[k]).toNat = (s.pc.toNat + 2) % 65536 ∧ t.SP.val = k.val + 1 ∧
      t.pc.toNat = nnn.toNat ∧ UnchangedBut [.pc, .sp, .stackEntry k] s t

/-- R155: `2nnn` with SP = 16, whatever the target. -/
def Obligations.CallOnAFullStackOverflows : Prop :=
  ∀ (s : State) (nnn : BitVec 12), s.SP.val = 16 → ∃ t, exec (.call nnn) s = .next t ∧ LatchesOnly (.stackOverflow 16) s t

/-- R75, R81: the two jumps go to nnn and to the exact sum nnn + V0 (not reduced), and write pc alone. -/
def Obligations.JumpsSetPc : Prop :=
  ∀ (s : State) (nnn : BitVec 12),
    (0x200 ≤ nnn.toNat → ∃ t, exec (.jp nnn) s = .next t ∧ t.pc.toNat = nnn.toNat ∧ UnchangedBut [.pc] s t) ∧
    (ValidTarget (nnn.toNat + (s.reg 0).toNat) →
      ∃ t, exec (.jpV0 nnn) s = .next t ∧ t.pc.toNat = nnn.toNat + (s.reg 0).toNat ∧ UnchangedBut [.pc] s t)

/-- R74, R75, R76, R81: a transfer to a target outside [0x200, 0xFFF] raises `MemoryAccessError` with the target and has no
effect (decision D3, log entry 11); `CALL`'s and `RET`'s own checks come first (R159). -/
def Obligations.TransfersOutsideTheProgramRegionFault : Prop :=
  ∀ (s : State) (nnn : BitVec 12),
    (nnn.toNat < 0x200 → ∃ t, exec (.jp nnn) s = .next t ∧ LatchesOnly (.memoryAccessError nnn.toNat) s t) ∧
    (nnn.toNat < 0x200 → s.SP.val < 16 →
      ∃ t, exec (.call nnn) s = .next t ∧ LatchesOnly (.memoryAccessError nnn.toNat) s t) ∧
    (¬ ValidTarget (nnn.toNat + (s.reg 0).toNat) →
      ∃ t, exec (.jpV0 nnn) s = .next t ∧ LatchesOnly (.memoryAccessError (nnn.toNat + (s.reg 0).toNat)) s t) ∧
    (∀ k : Fin 16, s.SP.val = k.val + 1 → ¬ ValidTarget (s.stack[k]).toNat →
      ∃ t, exec .ret s = .next t ∧ LatchesOnly (.memoryAccessError (s.stack[k]).toNat) s t)

/-- R77, R78: the skips on an immediate, taken and not taken; past the program region they fault without effect (R72,
decision D3, log entry 11). -/
def Obligations.SkipsCompareWithTheImmediate : Prop :=
  ∀ (s : State) (x : RegIdx) (nn : Byte) (d e : Nat),
    d = (if s.reg x = nn then 4 else 2) → e = (if s.reg x = nn then 2 else 4) →
    (s.CanAdvance d →
      ∃ t, exec (.seImm x nn) s = .next t ∧ t.pc.toNat = s.pc.toNat + d ∧ UnchangedBut [.pc] s t) ∧
    (¬ s.CanAdvance d →
      ∃ t, exec (.seImm x nn) s = .next t ∧ LatchesOnly (.memoryAccessError (s.pc.toNat + d)) s t) ∧
    (s.CanAdvance e →
      ∃ t, exec (.sneImm x nn) s = .next t ∧ t.pc.toNat = s.pc.toNat + e ∧ UnchangedBut [.pc] s t) ∧
    (¬ s.CanAdvance e →
      ∃ t, exec (.sneImm x nn) s = .next t ∧ LatchesOnly (.memoryAccessError (s.pc.toNat + e)) s t)

/-- R79, R80: the skips on two registers, as the skips on an immediate. -/
def Obligations.SkipsCompareTwoRegisters : Prop :=
  ∀ (s : State) (x y : RegIdx) (d e : Nat),
    d = (if s.reg x = s.reg y then 4 else 2) → e = (if s.reg x = s.reg y then 2 else 4) →
    (s.CanAdvance d →
      ∃ t, exec (.seReg x y) s = .next t ∧ t.pc.toNat = s.pc.toNat + d ∧ UnchangedBut [.pc] s t) ∧
    (¬ s.CanAdvance d →
      ∃ t, exec (.seReg x y) s = .next t ∧ LatchesOnly (.memoryAccessError (s.pc.toNat + d)) s t) ∧
    (s.CanAdvance e →
      ∃ t, exec (.sneReg x y) s = .next t ∧ t.pc.toNat = s.pc.toNat + e ∧ UnchangedBut [.pc] s t) ∧
    (¬ s.CanAdvance e →
      ∃ t, exec (.sneReg x y) s = .next t ∧ LatchesOnly (.memoryAccessError (s.pc.toNat + e)) s t)

/-- R74, R76, the source's round trip (spec/95_test_vectors.md S8): `CALL` and then `RET` come back to the instruction after
the `CALL` with the depth as before; only pc and the one dead entry differ. -/
def Obligations.CallThenRetComesBack : Prop :=
  ∀ (s : State) (nnn : BitVec 12) (k : Fin 16), s.SP.val = k.val → 0x200 ≤ nnn.toNat → s.CanAdvance 2 →
    ∃ t u, exec (.call nnn) s = .next t ∧ exec .ret t = .next u ∧ u.pc.toNat = s.pc.toNat + 2 ∧ u.SP = s.SP ∧
      UnchangedBut [.pc, .stackEntry k] s u

/-! ## Registers (spec/41_alu.md) -/

/-- R90, R91: load and add immediate. The sum wraps; VF is not written unless it is Vx (decision D14, log entry 14). -/
def Obligations.ImmediateLoadAndAdd : Prop :=
  ∀ (s : State) (x : RegIdx) (nn : Byte), s.CanAdvance 2 →
    (∃ t, exec (.ldImm x nn) s = .next t ∧ t.reg x = nn ∧ t.pc.toNat = s.pc.toNat + 2 ∧
      UnchangedBut [.pc, .reg x] s t) ∧
    (∃ t, exec (.addImm x nn) s = .next t ∧ (t.reg x).toNat = ((s.reg x).toNat + nn.toNat) % 256 ∧
      t.pc.toNat = s.pc.toNat + 2 ∧ UnchangedBut [.pc, .reg x] s t)

/-- R92 to R95: assign, OR, AND, XOR, bit by bit; VF is not written unless it is Vx (decision D14, log entry 14). -/
def Obligations.RegisterMoveAndLogic : Prop :=
  ∀ (s : State) (x y : RegIdx), s.CanAdvance 2 →
    (∃ t, exec (.ldReg x y) s = .next t ∧ t.reg x = s.reg y ∧ t.pc.toNat = s.pc.toNat + 2 ∧
      UnchangedBut [.pc, .reg x] s t) ∧
    (∃ t, exec (.orReg x y) s = .next t ∧
      (∀ b, (t.reg x).getLsbD b = ((s.reg x).getLsbD b || (s.reg y).getLsbD b)) ∧ t.pc.toNat = s.pc.toNat + 2 ∧
      UnchangedBut [.pc, .reg x] s t) ∧
    (∃ t, exec (.andReg x y) s = .next t ∧
      (∀ b, (t.reg x).getLsbD b = ((s.reg x).getLsbD b && (s.reg y).getLsbD b)) ∧ t.pc.toNat = s.pc.toNat + 2 ∧
      UnchangedBut [.pc, .reg x] s t) ∧
    (∃ t, exec (.xorReg x y) s = .next t ∧
      (∀ b, (t.reg x).getLsbD b = ((s.reg x).getLsbD b ^^ (s.reg y).getLsbD b)) ∧ t.pc.toNat = s.pc.toNat + 2 ∧
      UnchangedBut [.pc, .reg x] s t)

/-- R96, R102: the sum modulo 256, and the carry to VF, written last (decision D13, log entry 14): with x = 15 VF is the
carry. -/
def Obligations.AddRegistersSetsCarry : Prop :=
  ∀ (s : State) (x y : RegIdx), s.CanAdvance 2 → ∃ t, exec (.addReg x y) s = .next t ∧
    (x ≠ 15 → (t.reg x).toNat = ((s.reg x).toNat + (s.reg y).toNat) % 256) ∧
    (t.reg 15).toNat = (if 255 < (s.reg x).toNat + (s.reg y).toNat then 1 else 0) ∧
    t.pc.toNat = s.pc.toNat + 2 ∧ UnchangedBut [.pc, .reg x, .reg 15] s t

/-- R97, R99, R102: the differences modulo 256, Vx - Vy and Vy - Vx, and NOT borrow to VF, written last (decision D13, log
entry 14). -/
def Obligations.SubtractionsSetNotBorrow : Prop :=
  ∀ (s : State) (x y : RegIdx), s.CanAdvance 2 →
    (∃ t, exec (.subReg x y) s = .next t ∧
      (x ≠ 15 → (t.reg x).toNat = ((s.reg x).toNat + 256 - (s.reg y).toNat) % 256) ∧
      (t.reg 15).toNat = (if (s.reg y).toNat ≤ (s.reg x).toNat then 1 else 0) ∧
      t.pc.toNat = s.pc.toNat + 2 ∧ UnchangedBut [.pc, .reg x, .reg 15] s t) ∧
    (∃ t, exec (.subnReg x y) s = .next t ∧
      (x ≠ 15 → (t.reg x).toNat = ((s.reg y).toNat + 256 - (s.reg x).toNat) % 256) ∧
      (t.reg 15).toNat = (if (s.reg x).toNat ≤ (s.reg y).toNat then 1 else 0) ∧
      t.pc.toNat = s.pc.toNat + 2 ∧ UnchangedBut [.pc, .reg x, .reg 15] s t)

/-- R98, R100, R101, R103: the shifts take Vy, by one place, and VF gets the bit shifted out, written last (decision D13,
log entry 14). -/
def Obligations.ShiftsTakeVyAndSetTheShiftedOutBit : Prop :=
  ∀ (s : State) (x y : RegIdx), s.CanAdvance 2 →
    (∃ t, exec (.shrReg x y) s = .next t ∧ (x ≠ 15 → (t.reg x).toNat = (s.reg y).toNat / 2) ∧
      (t.reg 15).toNat = (s.reg y).toNat % 2 ∧ t.pc.toNat = s.pc.toNat + 2 ∧
      UnchangedBut [.pc, .reg x, .reg 15] s t) ∧
    (∃ t, exec (.shlReg x y) s = .next t ∧ (x ≠ 15 → (t.reg x).toNat = 2 * (s.reg y).toNat % 256) ∧
      (t.reg 15).toNat = (s.reg y).toNat / 128 ∧ t.pc.toNat = s.pc.toNat + 2 ∧
      UnchangedBut [.pc, .reg x, .reg 15] s t)

/-- R104: the drawn byte masked with nn, so no bit outside nn is set; the draw is consumed. The byte is a free value
(decision D21, log entry 3): the statement holds for every value of `draws` and every byte. -/
def Obligations.RandomIsTheDrawnByteMasked : Prop :=
  ∀ (s : State) (x : RegIdx) (nn : Byte), s.CanAdvance 2 → ∃ t, exec (.rnd x nn) s = .next t ∧
    t.reg x = Config.randomByte s.draws &&& nn ∧ t.reg x &&& ~~~nn = 0x00#8 ∧ t.draws = s.draws + 1 ∧
    t.pc.toNat = s.pc.toNat + 2 ∧ UnchangedBut [.pc, .reg x, .draws] s t

/-! ## The address register and memory (spec/42_index_memory.md) -/

/-- R110, R111, R113: I from an immediate, by addition modulo 65536 (decision D15), and as a glyph address on all 8 bits of
Vx (decision D16; log entry 15). VF is not written (decision D14, log entry 14). -/
def Obligations.IndexRegisterWrites : Prop :=
  ∀ (s : State) (x : RegIdx) (nnn : BitVec 12), s.CanAdvance 2 →
    (∃ t, exec (.ldI nnn) s = .next t ∧ t.I.toNat = nnn.toNat ∧ t.pc.toNat = s.pc.toNat + 2 ∧
      UnchangedBut [.pc, .index] s t) ∧
    (∃ t, exec (.addI x) s = .next t ∧ t.I.toNat = (s.I.toNat + (s.reg x).toNat) % 65536 ∧
      t.pc.toNat = s.pc.toNat + 2 ∧ UnchangedBut [.pc, .index] s t) ∧
    (∃ t, exec (.ldF x) s = .next t ∧ t.I.toNat = 0x0050 + 5 * (s.reg x).toNat ∧ t.pc.toNat = s.pc.toNat + 2 ∧
      UnchangedBut [.pc, .index] s t)

/-- R32, R113: after `Fx29` on a digit, the five bytes from I are that digit's glyph in `FONT_TABLE`. -/
def Obligations.FontAddressPointsAtTheGlyph : Prop :=
  ∀ (s : State) (x : RegIdx) (j : Nat), s.CanAdvance 2 → FontIntact s.mem → (s.reg x).toNat ≤ 0xF → j < 5 →
    ∃ t, exec (.ldF x) s = .next t ∧
      t.mem.read (effectiveAddress t j) = Config.fontTable.getD (5 * (s.reg x).toNat + j) Config.memFill

/-- R114: hundreds, tens and ones of Vx to I, I+1, I+2; every other byte and every register unchanged, I included. -/
def Obligations.BcdStoresThreeDigits : Prop :=
  ∀ (s : State) (x : RegIdx), s.mem.wf = true → dataAccessible s (.ldB x) → s.CanAdvance 2 →
    ∃ t, exec (.ldB x) s = .next t ∧
      (t.mem.read (effectiveAddress s 0)).toNat = (s.reg x).toNat / 100 ∧
      (t.mem.read (effectiveAddress s 1)).toNat = (s.reg x).toNat / 10 % 10 ∧
      (t.mem.read (effectiveAddress s 2)).toNat = (s.reg x).toNat % 10 ∧
      t.pc.toNat = s.pc.toNat + 2 ∧
      UnchangedOutside (fun p => p = .pc ∨ ∃ k, k < 3 ∧ p = .byte (effectiveAddress s k)) s t

/-- R115: the digits' decimal law, and that no other digits within the bounds obey it. -/
def Obligations.BcdDigitsObeyTheDecimalLaw : Prop :=
  ∀ v : Byte, ∃ h t o : Byte, bcdDigits v = [h, t, o] ∧
    100 * h.toNat + 10 * t.toNat + o.toNat = v.toNat ∧ h.toNat ≤ 2 ∧ t.toNat ≤ 9 ∧ o.toNat ≤ 9 ∧
    ∀ h' t' o' : Nat, 100 * h' + 10 * t' + o' = v.toNat → h' ≤ 2 → t' ≤ 9 → o' ≤ 9 →
      h' = h.toNat ∧ t' = t.toNat ∧ o' = o.toNat

/-- R116: V0..Vx to I..I+x; every other byte and every register unchanged, I included (decision D17, log entry 8). -/
def Obligations.StoreRegistersFromV0ToVx : Prop :=
  ∀ (s : State) (x : RegIdx), s.mem.wf = true → dataAccessible s (.storeRegs x) → s.CanAdvance 2 →
    ∃ t, exec (.storeRegs x) s = .next t ∧
      (∀ k : RegIdx, k ≤ x → t.mem.read (effectiveAddress s k.val) = s.reg k) ∧ t.pc.toNat = s.pc.toNat + 2 ∧
      UnchangedOutside (fun p => p = .pc ∨ ∃ k, k ≤ x.val ∧ p = .byte (effectiveAddress s k)) s t

/-- R37, R114, R116, R152, R159: a store whose range holds a byte above 0xFFF or in the font (decision D11, log entry 12)
reports the lowest such address and stores nothing, wherever pc is (decisions D5, D8, log entry 13). -/
def Obligations.StoresFaultAtTheLowestAddressAndStoreNothing : Prop :=
  ∀ (s : State) (x : RegIdx) (k : Nat), ¬ Writable (effectiveAddress s k) →
    (∀ j, j < k → Writable (effectiveAddress s j)) →
    (k < 3 → ∃ t, exec (.ldB x) s = .next t ∧ LatchesOnly (.memoryAccessError (effectiveAddress s k)) s t) ∧
    (k ≤ x.val → ∃ t, exec (.storeRegs x) s = .next t ∧ LatchesOnly (.memoryAccessError (effectiveAddress s k)) s t)

/-- R117: V0..Vx from I..I+x, the font region included; the registers above Vx, I (decision D17, log entry 8) and memory
unchanged. -/
def Obligations.LoadRegistersFromV0ToVx : Prop :=
  ∀ (s : State) (x : RegIdx), dataAccessible s (.loadRegs x) → s.CanAdvance 2 →
    ∃ t, exec (.loadRegs x) s = .next t ∧
      (∀ k : RegIdx, k ≤ x → t.reg k = s.mem.read (effectiveAddress s k.val)) ∧ t.pc.toNat = s.pc.toNat + 2 ∧
      UnchangedOutside (fun p => p = .pc ∨ ∃ r : RegIdx, r ≤ x ∧ p = .reg r) s t

/-- R117, R127, R154: a load or a sprite whose range leaves the bank reports the lowest address above 0xFFF and changes
nothing, wherever pc is (decisions D5, D8, D12, log entries 13, 20). -/
def Obligations.ReadsPastTheEndFaultAtTheLowestAddress : Prop :=
  ∀ (s : State) (x y : RegIdx) (n : BitVec 4) (k : Nat), 0xFFF < effectiveAddress s k →
    (∀ j, j < k → effectiveAddress s j ≤ 0xFFF) →
    (k ≤ x.val → ∃ t, exec (.loadRegs x) s = .next t ∧ LatchesOnly (.memoryAccessError (effectiveAddress s k)) s t) ∧
    (k < n.toNat → ∃ t, exec (.drw x y n) s = .next t ∧ LatchesOnly (.memoryAccessError (effectiveAddress s k)) s t)

/-- R46: two neighbouring bytes stored by `Fx55` where pc goes next are the very next instruction executed. -/
def Obligations.StoredInstructionRunsNext : Prop :=
  ∀ (s : State) (x k : RegIdx) (i : Instr) (hk : k.val + 1 < 16), s.mem.wf = true → dataAccessible s (.storeRegs x) →
    s.CanAdvance 2 → s.StepIsNext → s.Running → k.val + 1 ≤ x.val → effectiveAddress s k.val = s.pc.toNat + 2 →
    decode (bytesToWord (s.reg k) (s.reg ⟨k.val + 1, hk⟩)) = .ok i →
    ∃ t, exec (.storeRegs x) s = .next t ∧ step t = exec i (takeEvent t)

/-! ## Framebuffer (spec/43_display.md) -/

/-- R126: every pixel off, VF not written (decision D14, log entry 14). -/
def Obligations.ClearTurnsEveryPixelOff : Prop :=
  ∀ s : State, s.CanAdvance 2 → ∃ t, exec .cls s = .next t ∧ (∀ (r : Row) (c : Col), pixel t.fb r c = false) ∧
    t.pc.toNat = s.pc.toNat + 2 ∧ UnchangedOutside (fun p => p = .pc ∨ ∃ r c, p = .pixel r c) s t

/-- R127, R128, R129, R130: a pixel is inverted exactly when a 1 bit of the sprite falls on it, every pixel wrapping
(decision D19), bit 7 leftmost (decision D18, log entry 16); VF is 1 exactly when such a pixel was on, and is written last
(decision D13, log entry 14). With n = 0 nothing is read and VF is 0 (decision D20). -/
def Obligations.DrawInvertsExactlyTheSpritesPixels : Prop :=
  ∀ (s : State) (x y : RegIdx) (n : BitVec 4), dataAccessible s (.drw x y n) → s.CanAdvance 2 →
    ∃ t, exec (.drw x y n) s = .next t ∧
      (∀ r c, SpriteBitOn s x y n.toNat r c → pixel t.fb r c = !pixel s.fb r c) ∧
      (∀ r c, ¬ SpriteBitOn s x y n.toNat r c → pixel t.fb r c = pixel s.fb r c) ∧
      ((∃ r c, SpriteBitOn s x y n.toNat r c ∧ pixel s.fb r c = true) → t.reg 15 = 0x01#8) ∧
      ((¬ ∃ r c, SpriteBitOn s x y n.toNat r c ∧ pixel s.fb r c = true) → t.reg 15 = 0x00#8) ∧
      t.pc.toNat = s.pc.toNat + 2 ∧ UnchangedOutside (fun p => p = .pc ∨ p = .reg 15 ∨ ∃ r c, p = .pixel r c) s t

/-- R130: the same sprite drawn twice at one place (x and y not 15, since the first draw writes VF) restores the
framebuffer; and where the first draw met no pixel that was on and has a 1 bit, the second answers VF = 1. R130 says the
latter of every sprite with a 1 bit; that is so only without a collision on the first draw (log entry 29). -/
def Obligations.DrawingTwiceRestoresTheFramebuffer : Prop :=
  ∀ (s : State) (x y : RegIdx) (n : BitVec 4), x ≠ 15 → y ≠ 15 → dataAccessible s (.drw x y n) → s.CanAdvance 2 →
    s.CanAdvance 4 → ∃ t u, exec (.drw x y n) s = .next t ∧ exec (.drw x y n) t = .next u ∧
      (∀ r c, pixel u.fb r c = pixel s.fb r c) ∧
      (t.reg 15 = 0x00#8 → (∃ r c, SpriteBitOn s x y n.toNat r c) → u.reg 15 = 0x01#8)

/-! ## Keypad and timers (spec/44_keypad_timers.md) -/

/-- R135, R136: the skips on a key, taken and not taken; past the program region they fault without effect (decision D3,
log entry 11). -/
def Obligations.KeySkipsFollowTheKeyFlag : Prop :=
  ∀ (s : State) (x : RegIdx) (k : KeyIdx) (d e : Nat), (s.reg x).toNat = k.val →
    d = (if s.key[k] = true then 4 else 2) → e = (if s.key[k] = true then 2 else 4) →
    (s.CanAdvance d → ∃ t, exec (.skp x) s = .next t ∧ t.pc.toNat = s.pc.toNat + d ∧ UnchangedBut [.pc] s t) ∧
    (¬ s.CanAdvance d →
      ∃ t, exec (.skp x) s = .next t ∧ LatchesOnly (.memoryAccessError (s.pc.toNat + d)) s t) ∧
    (s.CanAdvance e → ∃ t, exec (.sknp x) s = .next t ∧ t.pc.toNat = s.pc.toNat + e ∧ UnchangedBut [.pc] s t) ∧
    (¬ s.CanAdvance e →
      ∃ t, exec (.sknp x) s = .next t ∧ LatchesOnly (.memoryAccessError (s.pc.toNat + e)) s t)

/-- R137, R157: a key index above 0xF faults with the value of Vx, wherever pc is (decision D22, log entry 9; decision D8,
log entry 13). -/
def Obligations.KeyIndexAboveFFaults : Prop :=
  ∀ (s : State) (x : RegIdx), 0x0F < (s.reg x).toNat →
    (∃ t, exec (.skp x) s = .next t ∧ LatchesOnly (.keyIndexError (s.reg x)) s t) ∧
    (∃ t, exec (.sknp x) s = .next t ∧ LatchesOnly (.keyIndexError (s.reg x)) s t)

/-- R138, R142, R143: the moves between a register and a timer. -/
def Obligations.TimerMoves : Prop :=
  ∀ (s : State) (x : RegIdx), s.CanAdvance 2 →
    (∃ t, exec (.ldVxDT x) s = .next t ∧ t.reg x = s.DT ∧ t.pc.toNat = s.pc.toNat + 2 ∧
      UnchangedBut [.pc, .reg x] s t) ∧
    (∃ t, exec (.ldDTVx x) s = .next t ∧ t.DT = s.reg x ∧ t.pc.toNat = s.pc.toNat + 2 ∧ UnchangedBut [.pc, .dt] s t) ∧
    (∃ t, exec (.ldSTVx x) s = .next t ∧ t.ST = s.reg x ∧ t.pc.toNat = s.pc.toNat + 2 ∧ UnchangedBut [.pc, .st] s t)

/-- R139: `Fx0A` enters the wait on every state: WAIT and WAITX are all it writes, pc stays, no key is read (decision D23,
log entry 17). -/
def Obligations.KeyWaitIsEnteredWithoutMovingPc : Prop :=
  ∀ (s : State) (x : RegIdx), ∃ t, exec (.ldVxK x) s = .next t ∧ t.WAIT = true ∧ t.WAITX = x ∧
    UnchangedBut [.wait, .waitX] s t

/-- R17: a timer never rises but by its own instruction (or `RESET`): after any other event its value is not greater. -/
def Obligations.TimersRiseOnlyByTheirInstructions : Prop :=
  ∀ s t : State, (∀ rom, nextEvent s ≠ .reset rom) → step s = .next t →
    (t.DT.toNat ≤ s.DT.toNat ∨
      (s.StepIsNext ∧ s.Running ∧ ∃ x, decode (wordAt s.mem s.pc.toNat) = .ok (.ldDTVx x) ∧ t.DT = s.reg x)) ∧
    (t.ST.toNat ≤ s.ST.toNat ∨
      (s.StepIsNext ∧ s.Running ∧ ∃ x, decode (wordAt s.mem s.pc.toNat) = .ok (.ldSTVx x) ∧ t.ST = s.reg x))

/-! ## Whole-machine rules -/

/-- R72, R159: an instruction that goes on to pc + 2 outside [0x200, 0xFFF] raises `MemoryAccessError` with that target and
has no effect, if its data accesses pass their own checks (decisions D3, D5, D8; log entries 11, 13). -/
def Obligations.SequentialAdvancePastTheEndFaults : Prop :=
  ∀ (s : State) (i : Instr), ¬ s.CanAdvance 2 → dataAccessible s i →
    (onlyAdvances i = true ∨ (∃ x y n, i = .drw x y n) ∨ (∃ x, i = .ldB x ∨ i = .storeRegs x ∨ i = .loadRegs x)) →
    ∃ t, exec i s = .next t ∧ LatchesOnly (.memoryAccessError (s.pc.toNat + 2)) s t

/-- R26, R152: every instruction either raises a fault and changes nothing but FAULT (decision D5, log entry 13), or
completes, leaves FAULT alone and writes only what its row of R26 lists. The canonical form of memory is a premise; it is
part of the invariant stated below. -/
def Obligations.EveryInstructionKeepsItsFrame : Prop :=
  ∀ (i : Instr) (s t : State), s.mem.wf = true → exec i s = .next t →
    (∃ k, LatchesOnly k s t) ∨ (t.FAULT = s.FAULT ∧ UnchangedOutside (mayWrite s i) s t)

/-- No instruction is refused or ends the model's run, and a step ends it only for a `RESET` whose ROM is too long. Both are
the model's choice: a fault, which by R160 and R189 halts the machine for good, is taken as a next state with FAULT latched
(log entry 1), and the load error of R182 ends the run (log entry 21). -/
def Obligations.EveryStepAnswersANextState : Prop :=
  (∀ (i : Instr) (s : State), ∃ t, exec i s = .next t) ∧
  (∀ s : State, (∀ rom, nextEvent s = .reset rom → rom.length ≤ 0xE00) → ∃ t, step s = .next t)

/-- R17, R19, R26: what an instruction does not read makes no difference to it: ST to none, DT to none but `Fx07`, the key
flags to none but `Ex9E` and `ExA1`. R19 and R26 list `Fx0A` too: its poll reads the flags, in a later `STEP` (R140), and
`exec` of it only enters the wait (decision D23, log entry 17). The two runs compared stand at one draw number, so `Cxnn`
draws one free byte in both: the comparison is of runs given the same random byte (log entry 3). -/
def Obligations.TimersAndKeysAreReadOnlyByTheirInstructions : Prop :=
  ∀ (i : Instr) (s t : State), exec i s = .next t →
    (∀ b : Byte, ∃ u, exec i (s.setST b) = .next u ∧ UnchangedBut [.st] t u) ∧
    (∀ b : Byte, (∀ x, i ≠ .ldVxDT x) → ∃ u, exec i (s.setDT b) = .next u ∧ UnchangedBut [.dt] t u) ∧
    (∀ (index : Nat) (p : Bool), (∀ x, i ≠ .skp x ∧ i ≠ .sknp x) →
      ∃ u, exec i (setKeyEvent index p s) = .next u ∧ u = setKeyEvent index p t)

/-- `Inv` holds of the reset state (R13, R25, R32). The clauses of `Inv` on live stack entries, on WAIT and on FAULT are
conditional, and hold because SP = 0 and WAIT = 0 (decision D9, log entry 4) and FAULT is `None` (decision D6, log
entry 1) there; the clauses on memory rest on the font and the fill (decisions D9, D10; log entries 5, 6). -/
def Obligations.InvariantHoldsAtReset : Prop := Inv State.reset

/-- R13, R14, R16, R32, R46, R150, R152: every event keeps the invariant: memory canonical, the font never mutated, pc in
[0x200, 0xFFF], every live return address in [0x202, 0x1000], WAIT only on the `Fx0A` under pc whose x is WAITX, and a
latched fault record that tells the truth. -/
def Obligations.EveryStepKeepsTheInvariant : Prop :=
  ∀ s t : State, Inv s → step s = .next t → Inv t

/-- R189: at a jump to itself every `STEP` leaves the whole state as it is. `Finished` is the model's definition (decision
D28, log entry 28). -/
def Obligations.FinishedStateStaysAsItIs : Prop :=
  ∀ s : State, s.Finished → 0x200 ≤ s.pc.toNat → s.StepIsNext → step s = .next (takeEvent s)

/-- The model's placing of an instruction (log entry 7, standing for the load of R33 and R180): the very next step runs
it. -/
def Obligations.PlacedInstructionRunsNext : Prop :=
  ∀ (s : State) (w : Nat) (i : Instr), s.mem.wf = true → w < 65536 → decode (BitVec.ofNat 16 w) = .ok i →
    step (s.withFetchWord 16 w) = exec i (s.withFetchWord 16 w)
end

