-- ==== Sys2Proof/Laws/Decode.lean ====
section
/-! SUPPORT. The fields of an encoded word, and that no two rows of the opcode table cover one word
(spec/30_encoding.md R52, R55, R56). -/

namespace Sys2Proof

theorem fieldFam_toNat (w : Word) : (fieldFam w).toNat = w.toNat / 4096 := by
  have := w.isLt
  simp only [fieldFam, BitVec.extractLsb'_toNat, Nat.shiftRight_eq_div_pow]; omega

theorem fieldX_val (w : Word) : (fieldX w).val = w.toNat / 256 % 16 := by
  simp only [fieldX, BitVec.val_toFin, BitVec.extractLsb'_toNat, Nat.shiftRight_eq_div_pow]

theorem fieldY_val (w : Word) : (fieldY w).val = w.toNat / 16 % 16 := by
  simp only [fieldY, BitVec.val_toFin, BitVec.extractLsb'_toNat, Nat.shiftRight_eq_div_pow]

theorem fieldN_toNat (w : Word) : (fieldN w).toNat = w.toNat % 16 := by
  simp only [fieldN, BitVec.extractLsb'_toNat, Nat.shiftRight_eq_div_pow]; omega

theorem fieldNN_toNat (w : Word) : (fieldNN w).toNat = w.toNat % 256 := by
  simp only [fieldNN, BitVec.extractLsb'_toNat, Nat.shiftRight_eq_div_pow]; omega

theorem fieldNNN_toNat (w : Word) : (fieldNNN w).toNat = w.toNat % 4096 := by
  simp only [fieldNNN, BitVec.extractLsb'_toNat, Nat.shiftRight_eq_div_pow]; omega

theorem encodeNNN_toNat (bits : Word) (nnn : BitVec 12) (h : bits.toNat ≤ 0xF000) :
    (encodeNNN bits nnn).toNat = bits.toNat + nnn.toNat := by
  have := nnn.isLt
  simp only [encodeNNN, BitVec.toNat_ofNat]; omega

theorem encodeXNN_toNat (bits : Word) (x : RegIdx) (nn : Byte) (h : bits.toNat ≤ 0xF000) :
    (encodeXNN bits x nn).toNat = bits.toNat + x.val * 256 + nn.toNat := by
  have := nn.isLt
  simp only [encodeXNN, BitVec.toNat_ofNat]; omega

theorem encodeXY_toNat (bits : Word) (x y : RegIdx) (h : bits.toNat ≤ 0xF00F) :
    (encodeXY bits x y).toNat = bits.toNat + x.val * 256 + y.val * 16 := by
  simp only [encodeXY, BitVec.toNat_ofNat]; omega

theorem encodeXYN_toNat (bits : Word) (x y : RegIdx) (n : BitVec 4) (h : bits.toNat ≤ 0xF000) :
    (encodeXYN bits x y n).toNat = bits.toNat + x.val * 256 + y.val * 16 + n.toNat := by
  have := n.isLt
  simp only [encodeXYN, BitVec.toNat_ofNat]; omega

theorem encodeXF_toNat (bits : Word) (x : RegIdx) (h : bits.toNat ≤ 0xF0FF) :
    (encodeXF bits x).toNat = bits.toNat + x.val * 256 := by
  simp only [encodeXF, BitVec.toNat_ofNat]; omega

/-! The masks of R56 as arithmetic on the word. -/

theorem and_F000 (w : Word) : (w &&& 0xF000#16).toNat = w.toNat / 4096 * 4096 := by
  have h : w &&& 0xF000#16 = (w >>> 12) <<< 12 := by
    apply BitVec.eq_of_getLsbD_eq; intro i hi; interval_cases i <;> simp
  have := w.isLt
  rw [h]; simp only [BitVec.toNat_shiftLeft, BitVec.toNat_ushiftRight, Nat.shiftRight_eq_div_pow, Nat.shiftLeft_eq]; omega

/-- A mask of the family nibble and of the low `k` bits. -/
theorem and_family_low (w : Word) (low : Word) (k : Nat) (hk : k ≤ 12) (hlow : low.toNat = 2 ^ k - 1) :
    (w &&& (0xF000#16 ||| low)).toNat = w.toNat / 4096 * 4096 + w.toNat % 2 ^ k := by
  have hdist : w &&& (0xF000#16 ||| low) = (w &&& 0xF000#16) ||| (w &&& low) := by
    apply BitVec.eq_of_getLsbD_eq; intro i hi
    simp only [BitVec.getLsbD_and, BitVec.getLsbD_or, Bool.and_or_distrib_left]
  have hlt : w.toNat % 2 ^ k < 2 ^ 12 :=
    Nat.lt_of_lt_of_le (Nat.mod_lt _ (Nat.two_pow_pos k)) (Nat.pow_le_pow_right (by omega) hk)
  rw [hdist, BitVec.toNat_or, and_F000, BitVec.toNat_and, hlow, Nat.and_two_pow_sub_one_eq_mod]
  rw [show w.toNat / 4096 * 4096 = (w.toNat / 4096) <<< 12 by rw [Nat.shiftLeft_eq]]
  rw [← Nat.shiftLeft_add_eq_or_of_lt hlt]

theorem and_F00F (w : Word) : (w &&& 0xF00F#16).toNat = w.toNat / 4096 * 4096 + w.toNat % 16 :=
  and_family_low w 0x000F#16 4 (by omega) (by decide)

theorem and_F0FF (w : Word) : (w &&& 0xF0FF#16).toNat = w.toNat / 4096 * 4096 + w.toNat % 256 :=
  and_family_low w 0x00FF#16 8 (by omega) (by decide)

/-- A row with mask 0xF000 covers exactly the words of its family (formats NNN, XNN, XYN). -/
theorem covers_F000 (bits w : Word) :
    OpcodeRow.covers ⟨bits, 0xF000#16⟩ w = true ↔ w.toNat / 4096 * 4096 = bits.toNat := by
  simp only [OpcodeRow.covers, beq_iff_eq, ← BitVec.toNat_inj, and_F000]

/-- A row with mask 0xF00F covers exactly the words with its family and last nibble (format XY). -/
theorem covers_F00F (bits w : Word) :
    OpcodeRow.covers ⟨bits, 0xF00F#16⟩ w = true ↔ w.toNat / 4096 * 4096 + w.toNat % 16 = bits.toNat := by
  simp only [OpcodeRow.covers, beq_iff_eq, ← BitVec.toNat_inj, and_F00F]

/-- A row with mask 0xF0FF covers exactly the words with its family and low byte (format XF). -/
theorem covers_F0FF (bits w : Word) :
    OpcodeRow.covers ⟨bits, 0xF0FF#16⟩ w = true ↔ w.toNat / 4096 * 4096 + w.toNat % 256 = bits.toNat := by
  simp only [OpcodeRow.covers, beq_iff_eq, ← BitVec.toNat_inj, and_F0FF]

/-- R56 has 34 rows. -/
theorem opcodeTable_length : opcodeTable.length = 34 := by decide

/-- Two rows that differ on a bit both of them fix cover no word in common. -/
def rowsApart (r q : OpcodeRow) : Bool := (r.bits &&& q.mask) != (q.bits &&& r.mask)

/-- The 34 match sets are pairwise disjoint (R55). -/
theorem opcodeTable_disjoint : opcodeTable.Pairwise fun r q => rowsApart r q = true := by decide

/-- Every instruction's row is a row of the table. -/
theorem row_mem_opcodeTable (i : Instr) : i.row ∈ opcodeTable := by
  cases i <;> simp only [Instr.row] <;> decide

end Sys2Proof
end

