-- ==== Sys2Proof/Laws/Memory.lean ====
section
/-! SUPPORT. The memory bank (spec/20_memory.md R36 to R39): what a byte reads after a write, that every write keeps the
canonical form, and that equal contents are equal data. -/

namespace Sys2Proof.Machine.Memory

/-- Reset contents inside the font region, whatever fill and font are (R34). -/
theorem resetContents_font (fill : Byte) (font : List Byte) {a : Nat} (h : 0x050 ≤ a ∧ a ≤ 0x09F) :
    resetContents fill font a = font.getD (a - 0x050) fill := by simp [resetContents, inFont, Config.fontBase, h]

/-- Reset contents outside the font region, whatever fill and font are (R35). -/
theorem resetContents_outside (fill : Byte) (font : List Byte) {a : Nat} (h : ¬ (0x050 ≤ a ∧ a ≤ 0x09F)) :
    resetContents fill font a = fill := by
  have hf : inFont a = false := by simpa [inFont] using h
  rw [resetContents, hf]; rfl

/-- An unlisted address reads as the reset contents at R4's values. -/
theorem background_eq (a : Nat) : background a = resetContents Config.memFill Config.fontTable a := rfl

/-- Below the first listed address everything reads as the background. -/
theorem read_of_lt {lo a : Nat} {m : Memory} (h : wfFrom lo m = true) (ha : a < lo) : m.read a = background a := by
  induction m generalizing lo with
  | nil => rfl
  | cons c rest ih =>
    obtain ⟨b, v⟩ := c
    simp only [wfFrom, Bool.and_eq_true, decide_eq_true_eq] at h
    have hb : b ≠ a := by omega
    simp only [read, hb, if_false]
    exact ih h.2 (by omega)

/-- The canonical form from a lower address on is weaker. -/
theorem wfFrom_mono {lo lo' : Nat} {m : Memory} (h : wfFrom lo m = true) (hl : lo' ≤ lo) : wfFrom lo' m = true := by
  cases m with
  | nil => rfl
  | cons c rest =>
    obtain ⟨b, v⟩ := c
    simp only [wfFrom, Bool.and_eq_true, decide_eq_true_eq] at h ⊢
    exact ⟨⟨⟨by omega, h.1.1.2⟩, h.1.2⟩, h.2⟩

/-- The canonical form starts at the first listed address. -/
theorem wfFrom_head {lo a : Nat} {v : Byte} {rest : Memory} (h : wfFrom lo ((a, v) :: rest) = true) :
    wfFrom a ((a, v) :: rest) = true := by
  simp only [wfFrom, Bool.and_eq_true, decide_eq_true_eq] at h ⊢
  exact ⟨⟨⟨Nat.le_refl _, h.1.1.2⟩, h.1.2⟩, h.2⟩

/-- Read after write, whatever was listed (canonical from `lo` on). -/
theorem read_writeFrom {lo : Nat} {m : Memory} (h : wfFrom lo m = true) (a b : Nat) (v : Byte) :
    (m.write a v).read b = if b = a then v else m.read b := by
  induction m generalizing lo with
  | nil =>
    by_cases hb : b = a
    · subst hb
      by_cases hv : v = background b <;> simp [write, read, hv]
    · by_cases hv : v = background a <;> simp [write, read, hv, hb, Ne.symm hb]
  | cons c rest ih =>
    obtain ⟨d, w⟩ := c
    simp only [wfFrom, Bool.and_eq_true, decide_eq_true_eq] at h
    have hrest : wfFrom (d + 1) rest = true := h.2
    simp only [write]
    split
    · rename_i hlt
      split
      · rename_i hv
        by_cases hb : b = a
        · subst hb
          have : d ≠ b := by omega
          simp [read, this, read_of_lt hrest (by omega : b < d + 1), hv]
        · simp [hb]
      · by_cases hb : b = a
        · subst hb; simp [read]
        · simp only [read, Ne.symm hb, hb, if_false]
    · split
      · rename_i hlt heq
        subst heq
        split
        · rename_i hv
          by_cases hb : b = a
          · subst hb; simp [read_of_lt hrest (by omega : b < b + 1), hv]
          · simp [read, Ne.symm hb, hb]
        · by_cases hb : b = a
          · subst hb; simp [read]
          · simp [read, Ne.symm hb, hb]
      · rename_i hlt hne
        simp only [read, ih hrest]
        by_cases hd : d = b
        · have : b ≠ a := by omega
          simp [hd, this]
        · simp [hd]

/-- A byte reads as last written: the address written gives the value, every other address is as before (R36, R37). -/
theorem read_write {m : Memory} (h : m.wf = true) (a b : Nat) (v : Byte) :
    (m.write a v).read b = if b = a then v else m.read b := read_writeFrom h a b v

/-- A write keeps the canonical form. -/
theorem write_wfFrom {lo : Nat} {m : Memory} (h : wfFrom lo m = true) {a : Nat} (v : Byte) (hlo : lo ≤ a)
    (ha : a < Config.memSize) : wfFrom lo (m.write a v) = true := by
  induction m generalizing lo with
  | nil =>
    simp only [write]
    split
    · rfl
    · simp_all [wfFrom]
  | cons c rest ih =>
    obtain ⟨d, w⟩ := c
    have h0 := h
    simp only [wfFrom, Bool.and_eq_true, decide_eq_true_eq] at h
    obtain ⟨⟨⟨h1, h2⟩, h3⟩, h4⟩ := h
    simp only [write]
    split
    · split
      · exact h0
      · simp only [wfFrom, Bool.and_eq_true, decide_eq_true_eq]
        exact ⟨⟨⟨hlo, ha⟩, by assumption⟩, ⟨⟨by omega, h2⟩, h3⟩, h4⟩
    · split
      · rename_i heq
        split
        · exact wfFrom_mono h4 (by omega)
        · simp only [wfFrom, Bool.and_eq_true, decide_eq_true_eq]
          exact ⟨⟨⟨hlo, ha⟩, by assumption⟩, heq ▸ h4⟩
      · simp only [wfFrom, Bool.and_eq_true, decide_eq_true_eq]
        exact ⟨⟨⟨h1, h2⟩, h3⟩, ih h4 (by omega)⟩

/-- A write inside the bank keeps the canonical form. -/
theorem write_wf {m : Memory} (h : m.wf = true) {a : Nat} (v : Byte) (ha : a < Config.memSize) :
    (m.write a v).wf = true := write_wfFrom h v (Nat.zero_le _) ha

/-- Consecutive writes inside the bank keep the canonical form. -/
theorem writeBytes_wf {m : Memory} (h : m.wf = true) {a : Nat} {bytes : List Byte}
    (ha : a + bytes.length ≤ Config.memSize) : (m.writeBytes a bytes).wf = true := by
  induction bytes generalizing m a with
  | nil => exact h
  | cons b bs ih =>
    simp only [List.length_cons] at ha
    exact ih (write_wf h b (by omega)) (by omega)

/-- Reading after consecutive writes: byte `b - a` of the list inside the written range, as before outside it. -/
theorem read_writeBytes {m : Memory} (h : m.wf = true) {a : Nat} {bytes : List Byte}
    (ha : a + bytes.length ≤ Config.memSize) (b : Nat) :
    (m.writeBytes a bytes).read b =
      if a ≤ b ∧ b < a + bytes.length then bytes.getD (b - a) 0 else m.read b := by
  induction bytes generalizing m a with
  | nil => rw [if_neg (by simp)]; rfl
  | cons v vs ih =>
    simp only [List.length_cons] at ha ⊢
    rw [writeBytes, ih (write_wf h v (by omega)) (by omega), read_write h]
    by_cases hb : b = a
    · subst hb; simp
    · by_cases hin : a + 1 ≤ b ∧ b < a + 1 + vs.length
      · have h2 : a ≤ b ∧ b < a + (vs.length + 1) := by omega
        obtain ⟨d, rfl⟩ : ∃ d, b = a + 1 + d := ⟨b - (a + 1), by omega⟩
        have h3 : a + 1 + d - a = d + 1 := by omega
        have h4 : a + 1 + d - (a + 1) = d := by omega
        simp only [if_pos hin, if_pos h2, h3, h4, List.getD_cons_succ]
      · have h2 : ¬ (a ≤ b ∧ b < a + (vs.length + 1)) := by omega
        simp only [if_neg hin, if_neg h2, hb, if_false]

/-- The bank at reset is in canonical form. -/
theorem reset_wf : State.reset.mem.wf = true := rfl

/-- Equal memories are equal data: two canonical memories that read alike everywhere are the same list. -/
theorem eq_of_read_eq {lo : Nat} {m₁ m₂ : Memory} (h₁ : wfFrom lo m₁ = true) (h₂ : wfFrom lo m₂ = true)
    (h : ∀ a, m₁.read a = m₂.read a) : m₁ = m₂ := by
  induction m₁ generalizing m₂ lo with
  | nil =>
    cases m₂ with
    | nil => rfl
    | cons c rest =>
      obtain ⟨b, v⟩ := c
      simp only [wfFrom, Bool.and_eq_true, decide_eq_true_eq] at h₂
      exact absurd (by simpa [read] using (h b).symm) h₂.1.2
  | cons c rest ih =>
    obtain ⟨a, v⟩ := c
    have g₁ := h₁
    simp only [wfFrom, Bool.and_eq_true, decide_eq_true_eq] at h₁
    cases m₂ with
    | nil => exact absurd (by simpa [read] using h a) h₁.1.2
    | cons c' rest' =>
      obtain ⟨b, w⟩ := c'
      have g₂ := h₂
      simp only [wfFrom, Bool.and_eq_true, decide_eq_true_eq] at h₂
      have hab : a = b := by
        rcases Nat.lt_trichotomy a b with hlt | heq | hlt
        · have hr := h a
          rw [read_of_lt (wfFrom_head g₂) hlt] at hr
          exact absurd (by simpa [read] using hr) h₁.1.2
        · exact heq
        · have hr := h b
          rw [read_of_lt (wfFrom_head g₁) hlt] at hr
          exact absurd (by simpa [read] using hr.symm) h₂.1.2
      subst hab
      have hvw : v = w := by simpa [read] using h a
      subst hvw
      congr 1
      refine ih h₁.2 h₂.2 fun d => ?_
      by_cases hd : a = d
      · subst hd; rw [read_of_lt h₁.2 (by omega), read_of_lt h₂.2 (by omega)]
      · simpa [read, hd] using h d

end Sys2Proof.Machine.Memory
end

