-- ==== Sys2Proof/Laws/State.lean ====
section
/-! SUPPORT. One lemma per field per update of State, true by rfl, so that no later proof unfolds a record update; and what
a register reads after a register write. -/

namespace Sys2Proof.Machine

variable (s : State)

/-! ### setReg -/

@[simp] theorem State.setReg_V (x : RegIdx) (v : Byte) : (s.setReg x v).V = s.V.set x v := rfl
@[simp] theorem State.setReg_I (x : RegIdx) (v : Byte) : (s.setReg x v).I = s.I := rfl
@[simp] theorem State.setReg_pc (x : RegIdx) (v : Byte) : (s.setReg x v).pc = s.pc := rfl
@[simp] theorem State.setReg_stack (x : RegIdx) (v : Byte) : (s.setReg x v).stack = s.stack := rfl
@[simp] theorem State.setReg_SP (x : RegIdx) (v : Byte) : (s.setReg x v).SP = s.SP := rfl
@[simp] theorem State.setReg_DT (x : RegIdx) (v : Byte) : (s.setReg x v).DT = s.DT := rfl
@[simp] theorem State.setReg_ST (x : RegIdx) (v : Byte) : (s.setReg x v).ST = s.ST := rfl
@[simp] theorem State.setReg_fb (x : RegIdx) (v : Byte) : (s.setReg x v).fb = s.fb := rfl
@[simp] theorem State.setReg_key (x : RegIdx) (v : Byte) : (s.setReg x v).key = s.key := rfl
@[simp] theorem State.setReg_WAIT (x : RegIdx) (v : Byte) : (s.setReg x v).WAIT = s.WAIT := rfl
@[simp] theorem State.setReg_WAITX (x : RegIdx) (v : Byte) : (s.setReg x v).WAITX = s.WAITX := rfl
@[simp] theorem State.setReg_FAULT (x : RegIdx) (v : Byte) : (s.setReg x v).FAULT = s.FAULT := rfl
@[simp] theorem State.setReg_mem (x : RegIdx) (v : Byte) : (s.setReg x v).mem = s.mem := rfl
@[simp] theorem State.setReg_draws (x : RegIdx) (v : Byte) : (s.setReg x v).draws = s.draws := rfl
@[simp] theorem State.setReg_schedule (x : RegIdx) (v : Byte) : (s.setReg x v).schedule = s.schedule := rfl

/-! ### loadRegs -/

@[simp] theorem State.loadRegs_I (bytes : List Byte) : (s.loadRegs bytes).I = s.I := rfl
@[simp] theorem State.loadRegs_pc (bytes : List Byte) : (s.loadRegs bytes).pc = s.pc := rfl
@[simp] theorem State.loadRegs_stack (bytes : List Byte) : (s.loadRegs bytes).stack = s.stack := rfl
@[simp] theorem State.loadRegs_SP (bytes : List Byte) : (s.loadRegs bytes).SP = s.SP := rfl
@[simp] theorem State.loadRegs_DT (bytes : List Byte) : (s.loadRegs bytes).DT = s.DT := rfl
@[simp] theorem State.loadRegs_ST (bytes : List Byte) : (s.loadRegs bytes).ST = s.ST := rfl
@[simp] theorem State.loadRegs_fb (bytes : List Byte) : (s.loadRegs bytes).fb = s.fb := rfl
@[simp] theorem State.loadRegs_key (bytes : List Byte) : (s.loadRegs bytes).key = s.key := rfl
@[simp] theorem State.loadRegs_WAIT (bytes : List Byte) : (s.loadRegs bytes).WAIT = s.WAIT := rfl
@[simp] theorem State.loadRegs_WAITX (bytes : List Byte) : (s.loadRegs bytes).WAITX = s.WAITX := rfl
@[simp] theorem State.loadRegs_FAULT (bytes : List Byte) : (s.loadRegs bytes).FAULT = s.FAULT := rfl
@[simp] theorem State.loadRegs_mem (bytes : List Byte) : (s.loadRegs bytes).mem = s.mem := rfl
@[simp] theorem State.loadRegs_draws (bytes : List Byte) : (s.loadRegs bytes).draws = s.draws := rfl
@[simp] theorem State.loadRegs_schedule (bytes : List Byte) : (s.loadRegs bytes).schedule = s.schedule := rfl

/-! ### setI -/

@[simp] theorem State.setI_V (v : Word) : (s.setI v).V = s.V := rfl
@[simp] theorem State.setI_I (v : Word) : (s.setI v).I = v := rfl
@[simp] theorem State.setI_pc (v : Word) : (s.setI v).pc = s.pc := rfl
@[simp] theorem State.setI_stack (v : Word) : (s.setI v).stack = s.stack := rfl
@[simp] theorem State.setI_SP (v : Word) : (s.setI v).SP = s.SP := rfl
@[simp] theorem State.setI_DT (v : Word) : (s.setI v).DT = s.DT := rfl
@[simp] theorem State.setI_ST (v : Word) : (s.setI v).ST = s.ST := rfl
@[simp] theorem State.setI_fb (v : Word) : (s.setI v).fb = s.fb := rfl
@[simp] theorem State.setI_key (v : Word) : (s.setI v).key = s.key := rfl
@[simp] theorem State.setI_WAIT (v : Word) : (s.setI v).WAIT = s.WAIT := rfl
@[simp] theorem State.setI_WAITX (v : Word) : (s.setI v).WAITX = s.WAITX := rfl
@[simp] theorem State.setI_FAULT (v : Word) : (s.setI v).FAULT = s.FAULT := rfl
@[simp] theorem State.setI_mem (v : Word) : (s.setI v).mem = s.mem := rfl
@[simp] theorem State.setI_draws (v : Word) : (s.setI v).draws = s.draws := rfl
@[simp] theorem State.setI_schedule (v : Word) : (s.setI v).schedule = s.schedule := rfl

/-! ### setDT -/

@[simp] theorem State.setDT_V (v : Byte) : (s.setDT v).V = s.V := rfl
@[simp] theorem State.setDT_I (v : Byte) : (s.setDT v).I = s.I := rfl
@[simp] theorem State.setDT_pc (v : Byte) : (s.setDT v).pc = s.pc := rfl
@[simp] theorem State.setDT_stack (v : Byte) : (s.setDT v).stack = s.stack := rfl
@[simp] theorem State.setDT_SP (v : Byte) : (s.setDT v).SP = s.SP := rfl
@[simp] theorem State.setDT_DT (v : Byte) : (s.setDT v).DT = v := rfl
@[simp] theorem State.setDT_ST (v : Byte) : (s.setDT v).ST = s.ST := rfl
@[simp] theorem State.setDT_fb (v : Byte) : (s.setDT v).fb = s.fb := rfl
@[simp] theorem State.setDT_key (v : Byte) : (s.setDT v).key = s.key := rfl
@[simp] theorem State.setDT_WAIT (v : Byte) : (s.setDT v).WAIT = s.WAIT := rfl
@[simp] theorem State.setDT_WAITX (v : Byte) : (s.setDT v).WAITX = s.WAITX := rfl
@[simp] theorem State.setDT_FAULT (v : Byte) : (s.setDT v).FAULT = s.FAULT := rfl
@[simp] theorem State.setDT_mem (v : Byte) : (s.setDT v).mem = s.mem := rfl
@[simp] theorem State.setDT_draws (v : Byte) : (s.setDT v).draws = s.draws := rfl
@[simp] theorem State.setDT_schedule (v : Byte) : (s.setDT v).schedule = s.schedule := rfl

/-! ### setST -/

@[simp] theorem State.setST_V (v : Byte) : (s.setST v).V = s.V := rfl
@[simp] theorem State.setST_I (v : Byte) : (s.setST v).I = s.I := rfl
@[simp] theorem State.setST_pc (v : Byte) : (s.setST v).pc = s.pc := rfl
@[simp] theorem State.setST_stack (v : Byte) : (s.setST v).stack = s.stack := rfl
@[simp] theorem State.setST_SP (v : Byte) : (s.setST v).SP = s.SP := rfl
@[simp] theorem State.setST_DT (v : Byte) : (s.setST v).DT = s.DT := rfl
@[simp] theorem State.setST_ST (v : Byte) : (s.setST v).ST = v := rfl
@[simp] theorem State.setST_fb (v : Byte) : (s.setST v).fb = s.fb := rfl
@[simp] theorem State.setST_key (v : Byte) : (s.setST v).key = s.key := rfl
@[simp] theorem State.setST_WAIT (v : Byte) : (s.setST v).WAIT = s.WAIT := rfl
@[simp] theorem State.setST_WAITX (v : Byte) : (s.setST v).WAITX = s.WAITX := rfl
@[simp] theorem State.setST_FAULT (v : Byte) : (s.setST v).FAULT = s.FAULT := rfl
@[simp] theorem State.setST_mem (v : Byte) : (s.setST v).mem = s.mem := rfl
@[simp] theorem State.setST_draws (v : Byte) : (s.setST v).draws = s.draws := rfl
@[simp] theorem State.setST_schedule (v : Byte) : (s.setST v).schedule = s.schedule := rfl

/-! ### setMem -/

@[simp] theorem State.setMem_V (m : Memory) : (s.setMem m).V = s.V := rfl
@[simp] theorem State.setMem_I (m : Memory) : (s.setMem m).I = s.I := rfl
@[simp] theorem State.setMem_pc (m : Memory) : (s.setMem m).pc = s.pc := rfl
@[simp] theorem State.setMem_stack (m : Memory) : (s.setMem m).stack = s.stack := rfl
@[simp] theorem State.setMem_SP (m : Memory) : (s.setMem m).SP = s.SP := rfl
@[simp] theorem State.setMem_DT (m : Memory) : (s.setMem m).DT = s.DT := rfl
@[simp] theorem State.setMem_ST (m : Memory) : (s.setMem m).ST = s.ST := rfl
@[simp] theorem State.setMem_fb (m : Memory) : (s.setMem m).fb = s.fb := rfl
@[simp] theorem State.setMem_key (m : Memory) : (s.setMem m).key = s.key := rfl
@[simp] theorem State.setMem_WAIT (m : Memory) : (s.setMem m).WAIT = s.WAIT := rfl
@[simp] theorem State.setMem_WAITX (m : Memory) : (s.setMem m).WAITX = s.WAITX := rfl
@[simp] theorem State.setMem_FAULT (m : Memory) : (s.setMem m).FAULT = s.FAULT := rfl
@[simp] theorem State.setMem_mem (m : Memory) : (s.setMem m).mem = m := rfl
@[simp] theorem State.setMem_draws (m : Memory) : (s.setMem m).draws = s.draws := rfl
@[simp] theorem State.setMem_schedule (m : Memory) : (s.setMem m).schedule = s.schedule := rfl

/-! ### setFb -/

@[simp] theorem State.setFb_V (f : Framebuffer) : (s.setFb f).V = s.V := rfl
@[simp] theorem State.setFb_I (f : Framebuffer) : (s.setFb f).I = s.I := rfl
@[simp] theorem State.setFb_pc (f : Framebuffer) : (s.setFb f).pc = s.pc := rfl
@[simp] theorem State.setFb_stack (f : Framebuffer) : (s.setFb f).stack = s.stack := rfl
@[simp] theorem State.setFb_SP (f : Framebuffer) : (s.setFb f).SP = s.SP := rfl
@[simp] theorem State.setFb_DT (f : Framebuffer) : (s.setFb f).DT = s.DT := rfl
@[simp] theorem State.setFb_ST (f : Framebuffer) : (s.setFb f).ST = s.ST := rfl
@[simp] theorem State.setFb_fb (f : Framebuffer) : (s.setFb f).fb = f := rfl
@[simp] theorem State.setFb_key (f : Framebuffer) : (s.setFb f).key = s.key := rfl
@[simp] theorem State.setFb_WAIT (f : Framebuffer) : (s.setFb f).WAIT = s.WAIT := rfl
@[simp] theorem State.setFb_WAITX (f : Framebuffer) : (s.setFb f).WAITX = s.WAITX := rfl
@[simp] theorem State.setFb_FAULT (f : Framebuffer) : (s.setFb f).FAULT = s.FAULT := rfl
@[simp] theorem State.setFb_mem (f : Framebuffer) : (s.setFb f).mem = s.mem := rfl
@[simp] theorem State.setFb_draws (f : Framebuffer) : (s.setFb f).draws = s.draws := rfl
@[simp] theorem State.setFb_schedule (f : Framebuffer) : (s.setFb f).schedule = s.schedule := rfl

/-! ### nextDraw -/

@[simp] theorem State.nextDraw_V : (s.nextDraw).V = s.V := rfl
@[simp] theorem State.nextDraw_I : (s.nextDraw).I = s.I := rfl
@[simp] theorem State.nextDraw_pc : (s.nextDraw).pc = s.pc := rfl
@[simp] theorem State.nextDraw_stack : (s.nextDraw).stack = s.stack := rfl
@[simp] theorem State.nextDraw_SP : (s.nextDraw).SP = s.SP := rfl
@[simp] theorem State.nextDraw_DT : (s.nextDraw).DT = s.DT := rfl
@[simp] theorem State.nextDraw_ST : (s.nextDraw).ST = s.ST := rfl
@[simp] theorem State.nextDraw_fb : (s.nextDraw).fb = s.fb := rfl
@[simp] theorem State.nextDraw_key : (s.nextDraw).key = s.key := rfl
@[simp] theorem State.nextDraw_WAIT : (s.nextDraw).WAIT = s.WAIT := rfl
@[simp] theorem State.nextDraw_WAITX : (s.nextDraw).WAITX = s.WAITX := rfl
@[simp] theorem State.nextDraw_FAULT : (s.nextDraw).FAULT = s.FAULT := rfl
@[simp] theorem State.nextDraw_mem : (s.nextDraw).mem = s.mem := rfl
@[simp] theorem State.nextDraw_draws : (s.nextDraw).draws = s.draws + 1 := rfl
@[simp] theorem State.nextDraw_schedule : (s.nextDraw).schedule = s.schedule := rfl

/-! ### takeEvent -/

@[simp] theorem takeEvent_V : (takeEvent s).V = s.V := rfl
@[simp] theorem takeEvent_I : (takeEvent s).I = s.I := rfl
@[simp] theorem takeEvent_pc : (takeEvent s).pc = s.pc := rfl
@[simp] theorem takeEvent_stack : (takeEvent s).stack = s.stack := rfl
@[simp] theorem takeEvent_SP : (takeEvent s).SP = s.SP := rfl
@[simp] theorem takeEvent_DT : (takeEvent s).DT = s.DT := rfl
@[simp] theorem takeEvent_ST : (takeEvent s).ST = s.ST := rfl
@[simp] theorem takeEvent_fb : (takeEvent s).fb = s.fb := rfl
@[simp] theorem takeEvent_key : (takeEvent s).key = s.key := rfl
@[simp] theorem takeEvent_WAIT : (takeEvent s).WAIT = s.WAIT := rfl
@[simp] theorem takeEvent_WAITX : (takeEvent s).WAITX = s.WAITX := rfl
@[simp] theorem takeEvent_FAULT : (takeEvent s).FAULT = s.FAULT := rfl
@[simp] theorem takeEvent_mem : (takeEvent s).mem = s.mem := rfl
@[simp] theorem takeEvent_draws : (takeEvent s).draws = s.draws := rfl
@[simp] theorem takeEvent_schedule : (takeEvent s).schedule = s.schedule.tail := rfl

/-! ### tickEvent -/

@[simp] theorem tickEvent_V : (tickEvent s).V = s.V := rfl
@[simp] theorem tickEvent_I : (tickEvent s).I = s.I := rfl
@[simp] theorem tickEvent_pc : (tickEvent s).pc = s.pc := rfl
@[simp] theorem tickEvent_stack : (tickEvent s).stack = s.stack := rfl
@[simp] theorem tickEvent_SP : (tickEvent s).SP = s.SP := rfl
@[simp] theorem tickEvent_DT : (tickEvent s).DT = countDown s.DT := rfl
@[simp] theorem tickEvent_ST : (tickEvent s).ST = countDown s.ST := rfl
@[simp] theorem tickEvent_fb : (tickEvent s).fb = s.fb := rfl
@[simp] theorem tickEvent_key : (tickEvent s).key = s.key := rfl
@[simp] theorem tickEvent_WAIT : (tickEvent s).WAIT = s.WAIT := rfl
@[simp] theorem tickEvent_WAITX : (tickEvent s).WAITX = s.WAITX := rfl
@[simp] theorem tickEvent_FAULT : (tickEvent s).FAULT = s.FAULT := rfl
@[simp] theorem tickEvent_mem : (tickEvent s).mem = s.mem := rfl
@[simp] theorem tickEvent_draws : (tickEvent s).draws = s.draws := rfl
@[simp] theorem tickEvent_schedule : (tickEvent s).schedule = s.schedule := rfl

/-! ### Reading a register -/

@[simp] theorem State.reg_setReg_same (x : RegIdx) (v : Byte) : (s.setReg x v).reg x = v := by
  simp [State.reg, State.setReg]

theorem State.reg_setReg (x r : RegIdx) (v : Byte) : (s.setReg x v).reg r = if r = x then v else s.reg r := by
  simp only [State.reg, State.setReg, Fin.getElem_fin, Vector.getElem_set, Fin.ext_iff, eq_comm]

theorem State.reg_setReg_other {x r : RegIdx} (v : Byte) (h : r ≠ x) : (s.setReg x v).reg r = s.reg r := by
  simp [State.reg_setReg, h]

/-- `V[k] <- b[k]` for k below the length of the list, every other register as before (R117). -/
theorem State.reg_loadRegs (bytes : List Byte) (r : RegIdx) :
    (s.loadRegs bytes).reg r = (bytes[r.val]?).getD (s.reg r) := by
  simp [State.reg, State.loadRegs]

/-- Only `V` makes a difference to a register. -/
theorem State.reg_congr {s t : State} (h : t.V = s.V) (r : RegIdx) : t.reg r = s.reg r := by simp [State.reg, h]

@[simp] theorem State.reg_setI (v : Word) (r : RegIdx) : (s.setI v).reg r = s.reg r := rfl
@[simp] theorem State.reg_setDT (v : Byte) (r : RegIdx) : (s.setDT v).reg r = s.reg r := rfl
@[simp] theorem State.reg_setST (v : Byte) (r : RegIdx) : (s.setST v).reg r = s.reg r := rfl
@[simp] theorem State.reg_setMem (m : Memory) (r : RegIdx) : (s.setMem m).reg r = s.reg r := rfl
@[simp] theorem State.reg_setFb (f : Framebuffer) (r : RegIdx) : (s.setFb f).reg r = s.reg r := rfl
@[simp] theorem State.reg_nextDraw (r : RegIdx) : (s.nextDraw).reg r = s.reg r := rfl
@[simp] theorem reg_takeEvent (r : RegIdx) : (takeEvent s).reg r = s.reg r := rfl
@[simp] theorem reg_tickEvent (r : RegIdx) : (tickEvent s).reg r = s.reg r := rfl

/-- `regsUpTo x` is V0..Vx (R116): x + 1 bytes, the k-th V[k]. -/
@[simp] theorem State.length_regsUpTo (x : RegIdx) : (s.regsUpTo x).length = x.val + 1 := by
  simp [State.regsUpTo]

theorem State.getElem?_regsUpTo (x r : RegIdx) :
    (s.regsUpTo x)[r.val]? = if r ≤ x then some (s.reg r) else none := by
  simp only [State.regsUpTo, List.getElem?_take, Fin.le_def, State.reg]
  split <;> split <;> first | omega | simp_all

end Sys2Proof.Machine
end

