-- ==== Sys2Proof/Laws/Ops.lean ====
section
/-! SUPPORT. One lemma for each shared operation, saying all it can do, cited instead of unfolding it. -/

namespace Sys2Proof.Machine

/-! ### Raising and writing pc (R14, R151) -/

theorem validTarget_iff (t : Nat) : ValidTarget t ↔ ¬ (t < 0x200 ∨ t > 0xFFF) := by omega

theorem checkPc_of_valid {t : Nat} (h : ValidTarget t) : checkPc t = .ok (BitVec.ofNat 16 t) :=
  if_neg ((validTarget_iff t).mp h)

theorem checkPc_of_invalid {t : Nat} (h : ¬ ValidTarget t) : checkPc t = .error (.memoryAccessError t) :=
  if_pos (Classical.not_not.mp fun hn => h ((validTarget_iff t).mpr hn))

/-- A valid target: every write of the instruction, and pc at the target. -/
theorem finish_of_valid {t : Nat} (h : ValidTarget t) (effect s : State) :
    finish t effect s = .next { effect with pc := BitVec.ofNat 16 t } := by simp [finish, checkPc_of_valid h]

/-- An invalid target: the fault, and nothing of the instruction. -/
theorem finish_of_invalid {t : Nat} (h : ¬ ValidTarget t) (effect s : State) :
    finish t effect s = raise (.memoryAccessError t) s := by simp [finish, checkPc_of_invalid h]

/-- All that `finish` can do. -/
theorem finish_cases {t : Nat} {effect s u : State} (h : finish t effect s = .next u) :
    (ValidTarget t ∧ u = { effect with pc := BitVec.ofNat 16 t }) ∨
    (¬ ValidTarget t ∧ u = { s with FAULT := some (.memoryAccessError t) }) := by
  by_cases hv : ValidTarget t
  · rw [finish_of_valid hv] at h; cases h; exact .inl ⟨hv, rfl⟩
  · rw [finish_of_invalid hv] at h; cases h; exact .inr ⟨hv, rfl⟩

/-- A valid target's 16-bit pc is the target itself: no wrap (R14). -/
theorem toNat_ofNat_of_valid {t : Nat} (h : ValidTarget t) : (BitVec.ofNat 16 t).toNat = t := by
  simp only [BitVec.toNat_ofNat]; exact Nat.mod_eq_of_lt (by unfold ValidTarget at h; omega)

/-- The sequential advance where pc + 2 is a target. -/
theorem advance_of_canAdvance {s : State} (h : s.CanAdvance 2) (effect : State) :
    advance effect s = .next { effect with pc := BitVec.ofNat 16 (s.pc.toNat + 2) } := finish_of_valid h effect s

/-- The sequential advance where pc + 2 is no target: the fault, and nothing of the instruction. -/
theorem advance_of_not {s : State} (h : ¬ s.CanAdvance 2) (effect : State) :
    advance effect s = raise (.memoryAccessError (s.pc.toNat + 2)) s := finish_of_invalid h effect s

/-- pc after an advance by d, as a number. -/
theorem toNat_pc_of_canAdvance {s : State} {d : Nat} (h : s.CanAdvance d) :
    (BitVec.ofNat 16 (s.pc.toNat + d)).toNat = s.pc.toNat + d := toNat_ofNat_of_valid h

/-- All that a conditional skip can do. -/
theorem finish_skipTarget {s : State} {d : Nat} {c : Bool} (hd : d = if c then 4 else 2) (effect : State) :
    finish (skipTarget s c) effect s =
      if s.CanAdvance d then .next { effect with pc := BitVec.ofNat 16 (s.pc.toNat + d) }
      else raise (.memoryAccessError (s.pc.toNat + d)) s := by
  have ht : skipTarget s c = s.pc.toNat + d := by rw [skipTarget, hd]
  rw [ht]
  split
  · rename_i h; exact finish_of_valid h effect s
  · rename_i h; exact finish_of_invalid h effect s

/-- Code 0 means that no fault is latched (R150). -/
theorem faultCode_eq_zero (f : Option FaultRecord) : faultCode f = 0 ↔ f = none := by
  rcases f with _ | (_ | _ | _ | _ | _) <;> simp [faultCode, FaultRecord.code]

/-- `raise` latches its record and changes nothing else (R151, R152). -/
theorem latchesOnly_of_eq (k : FaultRecord) (s : State) : LatchesOnly k s { s with FAULT := some k } := by
  refine ⟨rfl, fun p hp => ?_⟩
  cases p <;> first | rfl | simp at hp

/-! ### Memory accesses (R36, R37, R38) -/

theorem memRead_of_le {m : Memory} {a : Nat} (h : a ≤ 0xFFF) : memRead m a = .ok (m.read a) := if_neg (by omega)

theorem memRead_of_gt {m : Memory} {a : Nat} (h : 0xFFF < a) : memRead m a = .error (.memoryAccessError a) := if_pos h

/-- Reads that stay inside the bank give the bytes in order; reading none cannot fault (R38). -/
theorem readRange_ok (m : Memory) {a n : Nat} (h : n = 0 ∨ a + n ≤ 0x1000) :
    readRange m a n = .ok ((List.range n).map fun k => m.read (a + k)) := by
  induction n generalizing a with
  | zero => rfl
  | succ n ih =>
    have h1 : a ≤ 0xFFF := by omega
    rw [readRange, memRead_of_le h1, ih (by omega)]
    simp only [List.range_succ_eq_map, List.map_cons, List.map_map, Function.comp_def, Nat.add_zero]
    simp only [Nat.succ_eq_add_one, Nat.add_assoc, Nat.add_comm 1]

/-- Reads that leave the bank report the lowest address above 0xFFF (R154). -/
theorem readRange_err (m : Memory) {a n : Nat} (hn : n ≠ 0) (h : 0x1000 < a + n) :
    readRange m a n = .error (.memoryAccessError (max a 0x1000)) := by
  induction n generalizing a with
  | zero => exact absurd rfl hn
  | succ n ih =>
    by_cases h1 : 0xFFF < a
    · rw [readRange, memRead_of_gt h1, Nat.max_eq_left (by omega)]
    · rw [readRange, memRead_of_le (by omega), ih (by omega) (by omega)]
      simp only [Except.error.injEq, FaultRecord.memoryAccessError.injEq]
      omega

theorem checkWrite_of_writable {a : Nat} (h : Writable a) : checkWrite a = .ok () := by
  have hf : inFont a = false := by simp only [inFont, Bool.and_eq_false_iff, decide_eq_false_iff_not]; omega
  rw [checkWrite, if_neg (by omega), hf]; rfl

theorem checkWrite_of_not {a : Nat} (h : ¬ Writable a) : checkWrite a = .error (.memoryAccessError a) := by
  unfold checkWrite
  split
  · rfl
  · split
    · rfl
    · rename_i h1 h2
      simp only [inFont, Bool.and_eq_true, decide_eq_true_eq] at h2
      omega

/-- All that the checks of a range of stores can answer: yes if every byte may be stored to, else the lowest one that
may not (R154). -/
theorem checkWriteRange_cases (a n : Nat) :
    ((∀ k, k < n → Writable (a + k)) ∧ checkWriteRange a n = .ok ()) ∨
    (∃ k, k < n ∧ ¬ Writable (a + k) ∧ (∀ j, j < k → Writable (a + j)) ∧
      checkWriteRange a n = .error (.memoryAccessError (a + k))) := by
  induction n generalizing a with
  | zero => exact .inl ⟨by simp, rfl⟩
  | succ n ih =>
    by_cases hw : Writable a
    · rcases ih (a + 1) with ⟨hall, heq⟩ | ⟨k, hk, hnw, hbelow, heq⟩
      · refine .inl ⟨fun k hk => ?_, by rw [checkWriteRange, checkWrite_of_writable hw]; exact heq⟩
        cases k with
        | zero => exact hw
        | succ k => have := hall k (by omega); rwa [Nat.add_assoc, Nat.add_comm 1] at this
      · refine .inr ⟨k + 1, by omega, by rwa [Nat.add_assoc, Nat.add_comm 1] at hnw, fun j hj => ?_, ?_⟩
        · cases j with
          | zero => exact hw
          | succ j => have := hbelow j (by omega); rwa [Nat.add_assoc, Nat.add_comm 1] at this
        · rw [checkWriteRange, checkWrite_of_writable hw]
          simpa [Nat.add_assoc, Nat.add_comm 1] using heq
    · exact .inr ⟨0, by omega, by simpa using hw, by simp, by rw [checkWriteRange, checkWrite_of_not hw]; rfl⟩

/-- Bytes that may all be stored to are stored. -/
theorem storeBytes_ok (m : Memory) {a : Nat} {bytes : List Byte} (h : ∀ k, k < bytes.length → Writable (a + k)) :
    storeBytes m a bytes = .ok (m.writeBytes a bytes) := by
  rcases checkWriteRange_cases a bytes.length with ⟨_, heq⟩ | ⟨k, hk, hnw, _⟩
  · simp [storeBytes, heq]
  · exact absurd (h k hk) hnw

/-- All that a store can do: everything is stored, or the lowest byte that may not be is reported and nothing is. -/
theorem storeBytes_cases (m : Memory) (a : Nat) (bytes : List Byte) :
    ((∀ k, k < bytes.length → Writable (a + k)) ∧ storeBytes m a bytes = .ok (m.writeBytes a bytes)) ∨
    (∃ k, k < bytes.length ∧ ¬ Writable (a + k) ∧ (∀ j, j < k → Writable (a + j)) ∧
      storeBytes m a bytes = .error (.memoryAccessError (a + k))) := by
  rcases checkWriteRange_cases a bytes.length with ⟨hall, heq⟩ | ⟨k, hk, hnw, hbelow, heq⟩
  · exact .inl ⟨hall, by simp [storeBytes, heq]⟩
  · exact .inr ⟨k, hk, hnw, hbelow, by simp [storeBytes, heq]⟩

/-- Writable bytes in a row lie inside the bank. -/
theorem le_memSize_of_writable {a n : Nat} (hn : 0 < n) (h : ∀ k, k < n → Writable (a + k)) : a + n ≤ Config.memSize := by
  have := (h (n - 1) (by omega)).1
  unfold Config.memSize; omega

/-! ### Call stack (R16) -/

theorem push_of_lt {s : State} (h : s.SP.val < 16) (v : Word) :
    s.push v = .ok { s with stack := s.stack.set s.SP.val v, SP := ⟨s.SP.val + 1, by omega⟩ } := dif_pos h

theorem push_of_full {s : State} (h : s.SP.val = 16) (v : Word) : s.push v = .error (.stackOverflow 16) := by
  simp [State.push, h]

theorem pop_of_pos {s : State} (h : 0 < s.SP.val) :
    s.pop = .ok (s.stack[s.SP.val - 1]'(by omega), { s with SP := ⟨s.SP.val - 1, by omega⟩ }) := dif_pos h

theorem pop_of_empty {s : State} (h : s.SP.val = 0) : s.pop = .error (.stackUnderflow 0) := by
  simp [State.pop, h]

/-! ### Keypad (R137, R141) -/

/-- `KeyScan` from 0x0 upward: none exactly when no key is down. -/
theorem keyScan_none (key : Vector Bool 16) :
    keyScan Config.keyPriority key = none ↔ ∀ k : KeyIdx, key[k] = false := by
  simp [keyScan, Config.keyPriority]

theorem finRange_split (k : KeyIdx) :
    List.finRange 16 = (List.finRange 16).take k.val ++ k :: (List.finRange 16).drop (k.val + 1) := by
  revert k; decide

theorem mem_take_finRange (k j : KeyIdx) : j ∈ (List.finRange 16).take k.val ↔ j < k := by
  revert k j; decide

/-- `KeyScan` from 0x0 upward: the lowest pressed key (R141). -/
theorem keyScan_some (key : Vector Bool 16) (k : KeyIdx) :
    keyScan Config.keyPriority key = some k ↔ key[k] = true ∧ ∀ j : KeyIdx, j < k → key[j] = false := by
  constructor
  · intro h
    obtain ⟨hk, as, bs, heq, hbefore⟩ := List.find?_eq_some_iff_append.mp h
    refine ⟨by simpa using hk, fun j hj => ?_⟩
    have hlen : as = (List.finRange 16).take k.val := by
      have hk' : (List.finRange 16)[as.length]? = some k := by
        show Config.keyPriority[as.length]? = some k
        rw [heq]; simp
      have : as.length = k.val := by
        rw [List.getElem?_eq_some_iff] at hk'
        obtain ⟨hl, he⟩ := hk'
        simpa using congrArg Fin.val he
      have h2 : Config.keyPriority.take as.length = as := by rw [heq]; simp
      rw [← this, ← h2]; simp [Config.keyPriority]
    have := hbefore j (by rw [hlen]; exact (mem_take_finRange k j).mpr hj)
    simpa using this
  · rintro ⟨hk, hbelow⟩
    unfold keyScan Config.keyPriority
    rw [finRange_split k, List.find?_append]
    have : ((List.finRange 16).take k.val).find? (fun j => key[j]) = none := by
      rw [List.find?_eq_none]
      intro j hj
      simpa using hbelow j ((mem_take_finRange k j).mp hj)
    rw [this]
    have hk' : key[k.val] = true := hk
    simp [hk']

/-- A key index up to 0xF names that key, under either policy. -/
theorem keyIndex_of_le {v : Byte} (p : Config.KeyIndexPolicy) (h : v.toNat ≤ 0x0F) :
    keyIndex p v = .ok (Fin.ofNat 16 v.toNat) := if_neg (by omega)

/-- A key index above 0xF faults under the policy of this hardware (R137). -/
theorem keyIndex_of_gt {v : Byte} (h : 0x0F < v.toNat) :
    keyIndex Config.keyIndexPolicy v = .error (.keyIndexError v) := if_pos h

/-! ### Operands and flags -/

@[simp] theorem flagByte_toNat (b : Bool) : (flagByte b).toNat = if b then 1 else 0 := by cases b <;> rfl

/-- The glyph address is exact: no wrap (R113). -/
theorem glyphAddress_toNat (v : Byte) : (glyphAddress v).toNat = 0x050 + 5 * v.toNat := by
  have := v.isLt
  simp only [glyphAddress, Config.fontBase, BitVec.toNat_ofNat]; omega

/-- Under this hardware's `LOADSTORE_INCREMENTS_I` the bulk transfers leave I alone (R112). -/
@[simp] theorem indexAfterTransfer_unchanged (i : Word) (n : Nat) :
    indexAfterTransfer Config.loadStoreIncrementsI i n = i := rfl

@[simp] theorem bcdDigits_length (v : Byte) : (bcdDigits v).length = 3 := rfl

/-! ### Register writes, part by part -/

theorem setReg_same_part (s : State) {x : RegIdx} (v : Byte) {p : Part} (h : p ≠ .reg x) : p.same s (s.setReg x v) := by
  cases p with
  | reg r => exact State.reg_setReg_other s v (by rintro rfl; exact h rfl)
  | _ => rfl

theorem same_part_trans {s t u : State} {p : Part} (h₁ : p.same s t) (h₂ : p.same t u) : p.same s u := by
  cases p <;> exact h₂.trans h₁

/-! ### Framebuffer (R126, R127, R129) -/

@[simp] theorem pixel_clearFb (r : Row) (c : Col) : pixel clearFb r c = false := by simp [pixel, clearFb]

/-- One toggle inverts its own pixel and no other. -/
theorem pixel_togglePixel (fb : Framebuffer) (rc : Row × Col) (r : Row) (c : Col) :
    pixel (togglePixel fb rc) r c = if rc = (r, c) then !pixel fb r c else pixel fb r c := by
  obtain ⟨r', c'⟩ := rc
  simp only [pixel, togglePixel, Fin.getElem_fin, Vector.getElem_set, Prod.mk.injEq, Fin.ext_iff]
  by_cases hr : r'.val = r.val
  · by_cases hc : c'.val = c.val
    · simp [hr, hc]
    · simp [hr, hc]
  · simp [hr]

/-- A list of toggles that names no pixel twice inverts exactly the pixels it names, in whatever order (R129). -/
theorem pixel_drawCells (fb : Framebuffer) {cells : List (Row × Col)} (h : cells.Nodup) (r : Row) (c : Col) :
    pixel (drawCells fb cells) r c = if (r, c) ∈ cells then !pixel fb r c else pixel fb r c := by
  induction cells generalizing fb with
  | nil => simp [drawCells]
  | cons rc rest ih =>
    rw [List.nodup_cons] at h
    show pixel (drawCells (togglePixel fb rc) rest) r c = _
    rw [ih _ h.2, pixel_togglePixel]
    by_cases hm : (r, c) ∈ rest
    · have : rc ≠ (r, c) := fun he => h.1 (he ▸ hm)
      simp [hm, this]
    · by_cases he : rc = (r, c)
      · simp [he, hm]
      · simp [he, hm, Ne.symm he]

/-- The pixels of one sprite row: bit 7 - j of the byte at column (x0 + j) mod 64 (R127). -/
theorem mem_rowCells (x0 : Nat) (r r' : Row) (b : Byte) (c : Col) :
    (r', c) ∈ rowCells x0 r b ↔ r' = r ∧ ∃ j, j < 8 ∧ b.getLsbD (7 - j) = true ∧ c.val = (x0 + j) % 64 := by
  simp only [rowCells, List.mem_filterMap, List.mem_range]
  constructor
  · rintro ⟨j, hj, h⟩
    split at h
    · simp only [Option.some.injEq, Prod.mk.injEq] at h
      obtain ⟨rfl, rfl⟩ := h
      exact ⟨rfl, j, hj, by assumption, rfl⟩
    · cases h
  · rintro ⟨rfl, j, hj, hb, hc⟩
    refine ⟨j, hj, ?_⟩
    rw [if_pos hb]
    exact congrArg (fun d => some (r', d)) (Fin.ext hc.symm)

/-- The pixels of a sprite: row k of it on row (y0 + k) mod 32 (R127). -/
theorem mem_spriteCells (x0 y0 : Nat) (bytes : List Byte) (r : Row) (c : Col) :
    (r, c) ∈ spriteCells x0 y0 bytes ↔ ∃ k j, k < bytes.length ∧ j < 8 ∧
      (bytes.getD k 0).getLsbD (7 - j) = true ∧ c.val = (x0 + j) % 64 ∧ r.val = (y0 + k) % 32 := by
  induction bytes generalizing y0 with
  | nil => simp [spriteCells]
  | cons b bs ih =>
    simp only [spriteCells, List.mem_append, mem_rowCells, ih]
    constructor
    · rintro (⟨hr, j, hj, hb, hc⟩ | ⟨k, j, hk, hj, hb, hc, hr⟩)
      · exact ⟨0, j, by simp, hj, by simpa using hb, hc, by rw [hr]; rfl⟩
      · exact ⟨k + 1, j, by simpa using hk, hj, by simpa using hb, hc, by rw [hr]; congr 1; omega⟩
    · rintro ⟨k, j, hk, hj, hb, hc, hr⟩
      cases k with
      | zero => exact .inl ⟨Fin.ext hr, j, hj, by simpa using hb, hc⟩
      | succ k => exact .inr ⟨k, j, by simpa using hk, hj, by simpa using hb, hc, by rw [hr]; congr 1; omega⟩

theorem nodup_rowCells (x0 : Nat) (r : Row) (b : Byte) : (rowCells x0 r b).Nodup := by
  unfold rowCells List.Nodup
  rw [List.pairwise_filterMap]
  refine List.Pairwise.imp_of_mem ?_ (List.nodup_range (n := 8))
  intro i j hi hj hne c hc d hd heq
  rw [List.mem_range] at hi hj
  subst heq
  split at hc <;> split at hd
  · simp only [Option.some.injEq] at hc hd
    have h := congrArg (fun p : Row × Col => p.2.val) (hc.trans hd.symm)
    simp only [Fin.val_ofNat] at h
    omega
  all_goals simp_all

/-- No two 1 bits of a sprite fall on the same pixel, since it is at most 8 wide and 32 high (R129). -/
theorem nodup_spriteCells (x0 y0 : Nat) {bytes : List Byte} (h : bytes.length ≤ 32) :
    (spriteCells x0 y0 bytes).Nodup := by
  induction bytes generalizing y0 with
  | nil => simp [spriteCells]
  | cons b bs ih =>
    simp only [List.length_cons] at h
    simp only [spriteCells, List.nodup_append]
    refine ⟨nodup_rowCells _ _ _, ih _ (by omega), ?_⟩
    rintro ⟨r, c⟩ h₁ ⟨r', c'⟩ h₂ heq
    cases heq
    obtain ⟨k, j, hk, -, -, -, hr⟩ := (mem_spriteCells ..).mp h₂
    have hr' := congrArg Fin.val ((mem_rowCells ..).mp h₁).1
    simp only [Fin.val_ofNat] at hr'
    omega

/-- `hit` is what R127 says: some listed pixel was on. -/
theorem spriteHit_iff (fb : Framebuffer) (cells : List (Row × Col)) :
    spriteHit fb cells = true ↔ ∃ rc ∈ cells, pixel fb rc.1 rc.2 = true := by simp [spriteHit]

end Sys2Proof.Machine
end

