-- ==== Sys2Proof/Laws/Step.lean ====
section
/-! SUPPORT. What a `STEP` can do, said once (spec/40_step_and_flow.md R70): the inversion that invariants of the step cite. -/

namespace Sys2Proof.Machine

/-- A fetch with room for a word gives the big-endian word at pc (R71). -/
theorem fetch_of_le {s : State} (h : s.pc.toNat ≤ 0xFFE) : fetch s = .ok (wordAt s.mem s.pc.toNat) := by
  rw [fetch, memRead2, if_neg (by omega), if_neg (by omega)]; rfl

/-- A fetch without room faults (R36, R71). -/
theorem fetch_of_gt {s : State} (h : 0xFFE < s.pc.toNat) :
    fetch s = .error (.memoryAccessError (max s.pc.toNat 0x1000)) := by
  unfold fetch memRead2
  split
  · simp only [Except.error.injEq, FaultRecord.memoryAccessError.injEq]; omega
  · rw [if_pos (by omega)]
    simp only [Except.error.injEq, FaultRecord.memoryAccessError.injEq]; omega

/-- With a `STEP` next, a step is that `STEP`. -/
theorem step_of_stepIsNext {s : State} (h : s.StepIsNext) : step s = stepEvent (takeEvent s) := by
  unfold step; rw [h]; rfl

theorem stepEvent_of_running {s : State} (h : s.Running) :
    stepEvent s = match fetch s with
      | .error k => raise k s
      | .ok op => decodeAndExecute op s := by
  unfold stepEvent
  rw [h.1, h.2]
  rfl

/-- All that a `STEP` that answers a next state can have done (R70): nothing (halted), the poll (waiting), one instruction,
or a fault of fetch or decode. -/
theorem stepEvent_cases {s t : State} (h : stepEvent s = .next t) :
    (s.Halted ∧ t = s) ∨
    (s.FAULT = none ∧ s.WAIT = true ∧ pollWait s = .next t) ∨
    (s.Running ∧ s.pc.toNat ≤ 0xFFE ∧ ∃ i, decode (wordAt s.mem s.pc.toNat) = .ok i ∧ exec i s = .next t) ∨
    (s.Running ∧ s.pc.toNat ≤ 0xFFE ∧ (∃ e, decode (wordAt s.mem s.pc.toNat) = .error e) ∧
      t = { s with FAULT := some (.unknownOpcode s.pc (wordAt s.mem s.pc.toNat)) }) ∨
    (s.Running ∧ 0xFFE < s.pc.toNat ∧ t = { s with FAULT := some (.memoryAccessError (max s.pc.toNat 0x1000)) }) := by
  by_cases hF : s.FAULT.isSome = true
  · rw [stepEvent, if_pos hF] at h
    cases h; exact .inl ⟨hF, rfl⟩
  have hF' : s.FAULT = none := by simpa using hF
  by_cases hW : s.WAIT = true
  · rw [stepEvent, if_neg hF, if_pos hW] at h
    exact .inr (.inl ⟨hF', hW, h⟩)
  have hR : s.Running := ⟨hF', by simpa using hW⟩
  rw [stepEvent_of_running hR] at h
  by_cases hp : s.pc.toNat ≤ 0xFFE
  · rw [fetch_of_le hp] at h
    simp only [decodeAndExecute] at h
    split at h
    · rename_i e he
      cases h; exact .inr (.inr (.inr (.inl ⟨hR, hp, ⟨e, he⟩, rfl⟩)))
    · rename_i i hi
      exact .inr (.inr (.inl ⟨hR, hp, i, hi, h⟩))
  · rw [fetch_of_gt (by omega)] at h
    cases h; exact .inr (.inr (.inr (.inr ⟨hR, by omega, rfl⟩)))

/-- All that the wait poll can do (R140). -/
theorem pollWait_cases {s t : State} (h : pollWait s = .next t) :
    (keyScan Config.keyPriority s.key = none ∧ t = s) ∨
    (∃ k, keyScan Config.keyPriority s.key = some k ∧ s.CanAdvance 2 ∧
      t = { s.setReg s.WAITX (BitVec.ofNat 8 k.val) with WAIT := false, pc := BitVec.ofNat 16 (s.pc.toNat + 2) }) ∨
    (¬ s.CanAdvance 2 ∧ t = { s with FAULT := some (.memoryAccessError (s.pc.toNat + 2)) }) := by
  unfold pollWait at h
  split at h
  · rename_i hk; cases h; exact .inl ⟨hk, rfl⟩
  · rename_i k hk
    rcases finish_cases h with ⟨hv, rfl⟩ | ⟨hv, rfl⟩
    · exact .inr (.inl ⟨k, hk, hv, rfl⟩)
    · exact .inr (.inr ⟨hv, rfl⟩)

/-- A timer's value after one `TICK`, as a number: never negative (R145). -/
theorem countDown_toNat (t : Byte) : (countDown t).toNat = t.toNat - 1 := by
  have hl := t.isLt
  unfold countDown
  split
  · rename_i h; rw [h]; rfl
  · rename_i h
    have h0 : t.toNat ≠ 0 := fun h' => h (BitVec.eq_of_toNat_eq h')
    rw [BitVec.toNat_sub]
    simp only [BitVec.toNat_ofNat]
    omega

end Sys2Proof.Machine
end

