-- ==== Sys2Proof/Laws/Invariant.lean ====
section
/-! SUPPORT. The invariant through the shared operations: raising a fault, ending an instruction, storing bytes. A claim that
an instruction keeps `Inv` cites these and does not unfold the operations again. -/

namespace Sys2Proof.Machine

/-- The only decode error of a word is that it is illegal (R58). -/
theorem decode_error_illegal {w : Word} {e : DecodeError} (h : decode w = .error e) : e = .illegal w := by
  unfold decode decodeFamily0 decodeFamily8 decodeFamilyE decodeFamilyF at h
  repeat' split at h
  all_goals first | (cases h; done) | (cases h; rfl)

/-- A reported address that can be one: outside the program region's targets, at most 0xFFFF + 15 (R150). -/
theorem coherent_memoryAccessError {s : State} {a : Nat} (h : (a < 0x200 ∨ 0xFFF < a) ∧ a ≤ 0x1000E) :
    (FaultRecord.memoryAccessError a).Coherent s := h

/-- An offset of at most 15 from I (R38). -/
theorem effectiveAddress_le {s : State} {k : Nat} (h : k ≤ 15) : effectiveAddress s k ≤ 0x1000E := by
  unfold effectiveAddress
  have := s.I.isLt
  omega

/-- Raising a fault that tells the truth keeps the invariant. -/
theorem raise_inv {s t : State} {k : FaultRecord} (hi : Inv s) (h : raise k s = .next t) (hk : k.Coherent s) : Inv t := by
  cases h
  refine ⟨hi.memWf, hi.fontIntact, hi.pcRange, hi.liveStack, hi.waitWord, ?_⟩
  intro k' h'
  cases h'
  cases k <;> exact hk

/-- Ending an instruction keeps the invariant if its other writes do and the core is neither waiting nor halted. -/
theorem finish_inv {tg : Nat} {e s t : State} (hi : Inv s) (h : finish tg e s = .next t) (ht : tg ≤ 0x1000E)
    (hwf : e.mem.wf = true) (hfont : FontIntact e.mem)
    (hstack : ∀ k : Fin 16, k.val < e.SP.val → 0x202 ≤ (e.stack[k]).toNat ∧ (e.stack[k]).toNat ≤ 0x1000)
    (hwait : e.WAIT = false) (hfault : e.FAULT = none) : Inv t := by
  rcases finish_cases h with ⟨hv, rfl⟩ | ⟨hv, rfl⟩
  · refine ⟨hwf, hfont, ?_, hstack, fun hw => ?_, fun k hk => ?_⟩
    · show _ ≤ (BitVec.ofNat 16 tg).toNat ∧ _
      rw [toNat_ofNat_of_valid hv]; exact hv
    · exact absurd (hw : e.WAIT = true) (by simp [hwait])
    · exact absurd (hk : e.FAULT = some k) (by simp [hfault])
  · exact raise_inv hi rfl (coherent_memoryAccessError ⟨by unfold ValidTarget at hv; omega, ht⟩)

/-- Stores to writable bytes keep memory canonical and the font intact (R32, R37). -/
theorem writeBytes_keeps {m : Memory} {a : Nat} {bytes : List Byte} (hwf : m.wf = true) (hfont : FontIntact m)
    (hne : 0 < bytes.length) (hw : ∀ k, k < bytes.length → Writable (a + k)) :
    (m.writeBytes a bytes).wf = true ∧ FontIntact (m.writeBytes a bytes) := by
  have hle := le_memSize_of_writable hne hw
  refine ⟨Memory.writeBytes_wf hwf hle, fun k hk => ?_⟩
  rw [Memory.read_writeBytes hwf hle, if_neg, hfont k hk]
  rintro ⟨h1, h2⟩
  have := hw (Config.fontBase + k - a) (by omega)
  unfold Writable Config.fontBase at *
  unfold Config.fontSize at hk
  omega

/-- Taking an event off the schedule keeps the invariant. -/
theorem takeEvent_inv {s : State} (hi : Inv s) : Inv (takeEvent s) :=
  ⟨hi.memWf, hi.fontIntact, hi.pcRange, hi.liveStack, hi.waitWord, fun k hk => by
    have := hi.faultCoherent k hk
    cases k <;> exact this⟩

end Sys2Proof.Machine
end

