-- ==== Sys2Proof/Laws/PerInstr.lean ====
section
/-! SUPPORT. Statements made instruction by instruction. RowMatch: the word of an instruction matches the instruction's own
row of the opcode table, `(op & mask) = match` (spec/30_encoding.md R55, R56). -/

namespace Sys2Proof.Laws.RowMatch

/-- The encoded word is covered by the instruction's row of R56. -/
def Statement (i : Instr) : Prop := i.row.covers (encode i) = true

theorem formatNNN (bits : Word) (v : BitVec 12) (h : bits.toNat ≤ 0xF000 ∧ bits.toNat % 4096 = 0) :
    OpcodeRow.covers ⟨bits, 0xF000#16⟩ (encodeNNN bits v) = true := by
  rw [covers_F000, encodeNNN_toNat bits v h.1]; omega

theorem formatXNN (bits : Word) (x : RegIdx) (v : Byte) (h : bits.toNat ≤ 0xF000 ∧ bits.toNat % 4096 = 0) :
    OpcodeRow.covers ⟨bits, 0xF000#16⟩ (encodeXNN bits x v) = true := by
  rw [covers_F000, encodeXNN_toNat bits x v h.1]; omega

theorem formatXYN (bits : Word) (x y : RegIdx) (n : BitVec 4) (h : bits.toNat ≤ 0xF000 ∧ bits.toNat % 4096 = 0) :
    OpcodeRow.covers ⟨bits, 0xF000#16⟩ (encodeXYN bits x y n) = true := by
  rw [covers_F000, encodeXYN_toNat bits x y n h.1]; omega

theorem formatXY (bits : Word) (x y : RegIdx) (h : bits.toNat ≤ 0xF00F ∧ bits.toNat % 4096 < 16) :
    OpcodeRow.covers ⟨bits, 0xF00F#16⟩ (encodeXY bits x y) = true := by
  rw [covers_F00F, encodeXY_toNat bits x y h.1]; omega

theorem formatXF (bits : Word) (x : RegIdx) (h : bits.toNat ≤ 0xF0FF ∧ bits.toNat % 4096 < 256) :
    OpcodeRow.covers ⟨bits, 0xF0FF#16⟩ (encodeXF bits x) = true := by
  rw [covers_F0FF, encodeXF_toNat bits x h.1]; omega

theorem cls : Statement .cls := rfl
theorem ret : Statement .ret := rfl
theorem jp (nnn : BitVec 12) : Statement (.jp nnn) := formatNNN _ nnn (by decide)
theorem call (nnn : BitVec 12) : Statement (.call nnn) := formatNNN _ nnn (by decide)
theorem seImm (x : RegIdx) (nn : Byte) : Statement (.seImm x nn) := formatXNN _ x nn (by decide)
theorem sneImm (x : RegIdx) (nn : Byte) : Statement (.sneImm x nn) := formatXNN _ x nn (by decide)
theorem seReg (x y : RegIdx) : Statement (.seReg x y) := formatXY _ x y (by decide)
theorem ldImm (x : RegIdx) (nn : Byte) : Statement (.ldImm x nn) := formatXNN _ x nn (by decide)
theorem addImm (x : RegIdx) (nn : Byte) : Statement (.addImm x nn) := formatXNN _ x nn (by decide)
theorem ldReg (x y : RegIdx) : Statement (.ldReg x y) := formatXY _ x y (by decide)
theorem orReg (x y : RegIdx) : Statement (.orReg x y) := formatXY _ x y (by decide)
theorem andReg (x y : RegIdx) : Statement (.andReg x y) := formatXY _ x y (by decide)
theorem xorReg (x y : RegIdx) : Statement (.xorReg x y) := formatXY _ x y (by decide)
theorem addReg (x y : RegIdx) : Statement (.addReg x y) := formatXY _ x y (by decide)
theorem subReg (x y : RegIdx) : Statement (.subReg x y) := formatXY _ x y (by decide)
theorem shrReg (x y : RegIdx) : Statement (.shrReg x y) := formatXY _ x y (by decide)
theorem subnReg (x y : RegIdx) : Statement (.subnReg x y) := formatXY _ x y (by decide)
theorem shlReg (x y : RegIdx) : Statement (.shlReg x y) := formatXY _ x y (by decide)
theorem sneReg (x y : RegIdx) : Statement (.sneReg x y) := formatXY _ x y (by decide)
theorem ldI (nnn : BitVec 12) : Statement (.ldI nnn) := formatNNN _ nnn (by decide)
theorem jpV0 (nnn : BitVec 12) : Statement (.jpV0 nnn) := formatNNN _ nnn (by decide)
theorem rnd (x : RegIdx) (nn : Byte) : Statement (.rnd x nn) := formatXNN _ x nn (by decide)
theorem drw (x y : RegIdx) (n : BitVec 4) : Statement (.drw x y n) := formatXYN _ x y n (by decide)
theorem skp (x : RegIdx) : Statement (.skp x) := formatXF _ x (by decide)
theorem sknp (x : RegIdx) : Statement (.sknp x) := formatXF _ x (by decide)
theorem ldVxDT (x : RegIdx) : Statement (.ldVxDT x) := formatXF _ x (by decide)
theorem ldVxK (x : RegIdx) : Statement (.ldVxK x) := formatXF _ x (by decide)
theorem ldDTVx (x : RegIdx) : Statement (.ldDTVx x) := formatXF _ x (by decide)
theorem ldSTVx (x : RegIdx) : Statement (.ldSTVx x) := formatXF _ x (by decide)
theorem addI (x : RegIdx) : Statement (.addI x) := formatXF _ x (by decide)
theorem ldF (x : RegIdx) : Statement (.ldF x) := formatXF _ x (by decide)
theorem ldB (x : RegIdx) : Statement (.ldB x) := formatXF _ x (by decide)
theorem storeRegs (x : RegIdx) : Statement (.storeRegs x) := formatXF _ x (by decide)
theorem loadRegs (x : RegIdx) : Statement (.loadRegs x) := formatXF _ x (by decide)

end Sys2Proof.Laws.RowMatch
end

