-- ==== Sys2Proof/Tests/Slice0.lean ====
section
/-! SUPPORT. The model's own tests: expected results from spec/95_test_vectors.md (its vector ids stand in the comments) or
written out from spec/30_encoding.md R56; the WellFormed smoke; and, for each obligation with hypotheses, a witness that
concrete states and operands meet them all. -/

namespace Sys2Proof.Tests

open Sys2Proof Sys2Proof.Machine

/-! ## Helpers -/

/-- The reset state with registers and I set, pc at `pc`, and a word there (spec/95_test_vectors.md, conventions). -/
def start (regs : List (RegIdx × Byte)) (i : Word) (pc : Nat) (w : Word) : State :=
  let s := regs.foldl (fun s rv => s.setReg rv.1 rv.2) (State.reset.setI i)
  { s with pc := BitVec.ofNat 16 pc, mem := s.mem.writeBytes pc (wordBytes w) }

/-- The state with bytes stored at an address. -/
def withBytes (s : State) (a : Nat) (bytes : List Byte) : State := { s with mem := s.mem.writeBytes a bytes }

/-- What one step leaves, seen through `f`. -/
def after {α : Type} (s : State) (f : State → α) : Option α :=
  match step s with
  | .next t => some (f t)
  | _ => none

/-- pc and the fault latch. -/
def pcAndFault (s : State) : Word × Option FaultRecord := (s.pc, s.FAULT)

/-! ## Decoding: one word of each constructor, written out from its row of R56 -/

theorem test_decode_cls : decode 0x00E0#16 = .ok .cls := by decide
theorem test_decode_ret : decode 0x00EE#16 = .ok .ret := by decide
theorem test_decode_jp : decode 0x1ABC#16 = .ok (.jp 0xABC#12) := by decide
theorem test_decode_call : decode 0x2ABC#16 = .ok (.call 0xABC#12) := by decide
theorem test_decode_seImm : decode 0x332A#16 = .ok (.seImm 3 0x2A#8) := by decide
theorem test_decode_sneImm : decode 0x432A#16 = .ok (.sneImm 3 0x2A#8) := by decide
theorem test_decode_seReg : decode 0x5120#16 = .ok (.seReg 1 2) := by decide
theorem test_decode_ldImm : decode 0x6C7F#16 = .ok (.ldImm 12 0x7F#8) := by decide
theorem test_decode_addImm : decode 0x7220#16 = .ok (.addImm 2 0x20#8) := by decide
theorem test_decode_ldReg : decode 0x8AB0#16 = .ok (.ldReg 10 11) := by decide
theorem test_decode_orReg : decode 0x8AB1#16 = .ok (.orReg 10 11) := by decide
theorem test_decode_andReg : decode 0x8AB2#16 = .ok (.andReg 10 11) := by decide
theorem test_decode_xorReg : decode 0x8AB3#16 = .ok (.xorReg 10 11) := by decide
theorem test_decode_addReg : decode 0x8AB4#16 = .ok (.addReg 10 11) := by decide
theorem test_decode_subReg : decode 0x8AB5#16 = .ok (.subReg 10 11) := by decide
theorem test_decode_shrReg : decode 0x8AB6#16 = .ok (.shrReg 10 11) := by decide
theorem test_decode_subnReg : decode 0x8AB7#16 = .ok (.subnReg 10 11) := by decide
theorem test_decode_shlReg : decode 0x8ABE#16 = .ok (.shlReg 10 11) := by decide
theorem test_decode_sneReg : decode 0x9120#16 = .ok (.sneReg 1 2) := by decide
theorem test_decode_ldI : decode 0xA2F0#16 = .ok (.ldI 0x2F0#12) := by decide
theorem test_decode_jpV0 : decode 0xB300#16 = .ok (.jpV0 0x300#12) := by decide
theorem test_decode_rnd : decode 0xC30F#16 = .ok (.rnd 3 0x0F#8) := by decide
theorem test_decode_drw : decode 0xD12F#16 = .ok (.drw 1 2 15#4) := by decide
theorem test_decode_skp : decode 0xE59E#16 = .ok (.skp 5) := by decide
theorem test_decode_sknp : decode 0xE5A1#16 = .ok (.sknp 5) := by decide
theorem test_decode_ldVxDT : decode 0xF307#16 = .ok (.ldVxDT 3) := by decide
theorem test_decode_ldVxK : decode 0xF30A#16 = .ok (.ldVxK 3) := by decide
theorem test_decode_ldDTVx : decode 0xF315#16 = .ok (.ldDTVx 3) := by decide
theorem test_decode_ldSTVx : decode 0xF018#16 = .ok (.ldSTVx 0) := by decide
theorem test_decode_addI : decode 0xF91E#16 = .ok (.addI 9) := by decide
theorem test_decode_ldF : decode 0xF429#16 = .ok (.ldF 4) := by decide
theorem test_decode_ldB : decode 0xF033#16 = .ok (.ldB 0) := by decide
theorem test_decode_storeRegs : decode 0xF255#16 = .ok (.storeRegs 2) := by decide
theorem test_decode_loadRegs : decode 0xF465#16 = .ok (.loadRegs 4) := by decide

/-- 2.6: the illegal words listed there. -/
theorem test_decode_illegal :
    [0x0000#16, 0x00E1#16, 0x00EF#16, 0x00FF#16, 0x0123#16, 0x5001#16, 0x8008#16, 0x800F#16, 0x9005#16, 0xE000#16,
     0xE19F#16, 0xF000#16, 0xF175#16, 0xFF75#16].all (fun w => decode w == .error (.illegal w)) = true := by decide

/-- The bytes of the source's example, big-endian, the rest handed back (S9). -/
theorem test_decode_bytes : decodeBytes [0x60#8, 0x05#8, 0x61#8] = .ok (.ldImm 0 0x05#8, [0x61#8]) := by decide
theorem test_decode_truncated : decodeBytes [0x60#8] = .error .truncated := by decide
theorem test_decode_table_word : decodeTableWord 16 0x8014 = some (.addReg 0 1) := by decide

/-! ## WellFormed: each check refuses an ill-formed term -/

theorem test_wf_reg : wellFormedReg 15 = true ∧ wellFormedReg 16 = false := by decide
theorem test_wf_nn : wellFormedNN 255 = true ∧ wellFormedNN 256 = false := by decide
theorem test_wf_n : wellFormedN 15 = true ∧ wellFormedN 16 = false := by decide
theorem test_wf_nnn : wellFormedNNN 4095 = true ∧ wellFormedNNN 4096 = false := by decide
theorem test_wf_key_event : (Event.setKey 15 true).wellFormed = true ∧ (Event.setKey 16 true).wellFormed = false := by decide
/-- X1, X2: 3584 bytes are accepted, 3585 are not. -/
theorem test_wf_rom_event : (Event.reset (List.replicate 3584 0#8)).wellFormed = true ∧
    (Event.reset (List.replicate 3585 0#8)).wellFormed = false := by
  simp only [Event.wellFormed, wellFormedRom, List.length_replicate]
  decide
/-- Every `Instr` is well formed: its fields have the widths of R52. -/
theorem test_wf_instr (i : Instr) : i.wellFormed = true := by
  cases i <;> simp only [Instr.wellFormed, wellFormedReg, wellFormedNN, wellFormedN, wellFormedNNN, Bool.and_eq_true,
    decide_eq_true_eq] <;> omega

/-! ## One step of each instruction -/

/-- DR12 (VF kept) -/
theorem test_cls : after ({ (start [(15, 1)] 0 0x200 0x00E0) with fb := togglePixel clearFb (31, 63) }) (fun t => (pixel t.fb 31 63, t.reg 15, t.pc)) = some (false, 0x01#8, 0x0202#16) := by decide

/-- DR13 -/
theorem test_cls_end : after ({ (start [] 0 0xFFE 0x00E0) with fb := togglePixel clearFb (0, 0) }) (fun t => (pixel t.fb 0 0, t.FAULT)) = some (true, some (.memoryAccessError 0x1000)) := by decide

/-- F7 -/
theorem test_ret_underflow : after (start [] 0 0x200 0x00EE) pcAndFault = some (0x0200#16, some (.stackUnderflow 0)) := by decide

/-- F6 -/
theorem test_ret_past_end : after ({ (start [] 0 0x300 0x00EE) with SP := 1, stack := State.reset.stack.set 0 0x1000#16 }) (fun t => (t.SP.val, pcAndFault t)) = some (1, 0x0300#16, some (.memoryAccessError 0x1000)) := by decide

/-- F1 -/
theorem test_jp : after (start [] 0 0x200 0x1ABC) pcAndFault = some (0x0ABC#16, none) := by decide

/-- F2 -/
theorem test_jp_low : after (start [] 0 0x200 0x11FF) pcAndFault = some (0x0200#16, some (.memoryAccessError 0x01FF)) := by decide

/-- F5 -/
theorem test_call_high : after (start [] 0 0xFFE 0x2300) (fun t => (t.stack[0], t.SP.val, pcAndFault t)) = some (0x1000#16, 1, 0x0300#16, none) := by decide

/-- F8 -/
theorem test_call_overflow : after ({ (start [] 0 0x200 0x2100) with SP := 16 }) pcAndFault = some (0x0200#16, some (.stackOverflow 16)) := by decide

/-- F24 -/
theorem test_seImm_taken : after (start [(3, 0x2A)] 0 0x210 0x332A) pcAndFault = some (0x0214#16, none) := by decide

/-- F9 -/
theorem test_seImm_end : after (start [] 0 0xFFC 0x3A00) pcAndFault = some (0x0FFC#16, some (.memoryAccessError 0x1000)) := by decide

/-- F25 -/
theorem test_sneImm_not_taken : after (start [(3, 0x2A)] 0 0x210 0x432A) pcAndFault = some (0x0212#16, none) := by decide

/-- F18 -/
theorem test_seReg_same : after (start [] 0 0x200 0x5110) pcAndFault = some (0x0204#16, none) := by decide

/-- F26 -/
theorem test_sneReg_taken : after (start [(1, 7), (2, 8)] 0 0x300 0x9120) pcAndFault = some (0x0304#16, none) := by decide

/-- F19 -/
theorem test_sneReg_same : after (start [] 0 0x200 0x9110) pcAndFault = some (0x0202#16, none) := by decide

/-- F16 -/
theorem test_jpV0 : after (start [(0, 1)] 0 0x200 0xB1FF) pcAndFault = some (0x0200#16, none) := by decide

/-- F15 -/
theorem test_jpV0_high : after (start [(0, 0xFF)] 0 0x200 0xBFFF) pcAndFault = some (0x0200#16, some (.memoryAccessError 0x10FE)) := by decide

/-- S9, first instruction -/
theorem test_ldImm : after (start [] 0 0x200 0x6005) (fun t => (t.reg 0, t.pc)) = some (0x05#8, 0x0202#16) := by decide

/-- F11 -/
theorem test_ldImm_end : after (start [] 0 0xFFE 0x6001) (fun t => (t.reg 0, t.FAULT)) = some (0x00#8, some (.memoryAccessError 0x1000)) := by decide

/-- A14 -/
theorem test_addImm_wraps : after (start [(0, 0xFF), (15, 7)] 0 0x200 0x7001) (fun t => (t.reg 0, t.reg 15)) = some (0x00#8, 0x07#8) := by decide

/-- A15 -/
theorem test_addImm_vf : after (start [(15, 0xFF)] 0 0x200 0x7F01) (fun t => t.reg 15) = some 0x00#8 := by decide

/-- A26 -/
theorem test_ldReg : after (start [(1, 0x33)] 0 0x200 0x8010) (fun t => (t.reg 0, t.reg 1)) = some (0x33#8, 0x33#8) := by decide

/-- A16 -/
theorem test_orReg : after (start [(0, 0xF0), (1, 0x0F), (15, 9)] 0 0x200 0x8011) (fun t => (t.reg 0, t.reg 15)) = some (0xFF#8, 0x09#8) := by decide

/-- A17 -/
theorem test_andReg : after (start [(0, 0xF0), (1, 0x3C)] 0 0x200 0x8012) (fun t => (t.reg 0, t.reg 1)) = some (0x30#8, 0x3C#8) := by decide

/-- A18 -/
theorem test_xorReg : after (start [(0, 0xF0), (1, 0x3C)] 0 0x200 0x8013) (fun t => (t.reg 0, t.reg 1)) = some (0xCC#8, 0x3C#8) := by decide

/-- A1 (S5) -/
theorem test_addReg : after (start [(0, 0xFF), (1, 1)] 0 0x200 0x8014) (fun t => (t.reg 0, t.reg 15)) = some (0x00#8, 0x01#8) := by decide

/-- A4 -/
theorem test_addReg_vf_dest : after (start [(15, 0x80), (1, 0x90)] 0 0x200 0x8F14) (fun t => (t.reg 15, t.reg 1)) = some (0x01#8, 0x90#8) := by decide

/-- A2 (S5) -/
theorem test_subReg : after (start [(0, 1), (1, 2)] 0 0x200 0x8015) (fun t => (t.reg 0, t.reg 15)) = some (0xFF#8, 0x00#8) := by decide

/-- A24 -/
theorem test_subReg_vf_dest : after (start [(15, 3), (1, 5)] 0 0x200 0x8F15) (fun t => (t.reg 15, t.reg 1)) = some (0x00#8, 0x05#8) := by decide

/-- A7 -/
theorem test_shrReg : after (start [(0, 0xAA), (1, 7)] 0 0x200 0x8016) (fun t => (t.reg 0, t.reg 15, t.reg 1)) = some (0x03#8, 0x01#8, 0x07#8) := by decide

/-- A9 -/
theorem test_shrReg_vf : after (start [(15, 3)] 0 0x200 0x8FF6) (fun t => (t.reg 15, t.reg 0)) = some (0x01#8, 0x00#8) := by decide

/-- A11 -/
theorem test_subnReg : after (start [(0, 2), (1, 1)] 0 0x200 0x8017) (fun t => (t.reg 0, t.reg 15)) = some (0xFF#8, 0x00#8) := by decide

/-- A12 -/
theorem test_subnReg_no_borrow : after (start [(0, 1), (1, 2)] 0 0x200 0x8017) (fun t => (t.reg 0, t.reg 15)) = some (0x01#8, 0x01#8) := by decide

/-- A8 -/
theorem test_shlReg : after (start [(1, 0x81)] 0 0x200 0x801E) (fun t => (t.reg 0, t.reg 15, t.reg 1)) = some (0x02#8, 0x01#8, 0x81#8) := by decide

/-- A10 -/
theorem test_shlReg_vf : after (start [(15, 0x40)] 0 0x200 0x8FFE) (fun t => (t.reg 15, t.reg 0)) = some (0x00#8, 0x00#8) := by decide

/-- R104: the draw is consumed, pc moves -/
theorem test_rnd_consumes_a_draw : after (start [] 0 0x200 0xC30F) (fun t => (t.draws, t.pc)) = some (1, 0x0202#16) := by decide

/-- A28: nn = 0 gives 0 whatever the random byte. -/
theorem test_rnd_zero (s : State) (h : s.CanAdvance 2) :
    ∃ t, exec (.rnd 5 0x00#8) s = .next t ∧ t.reg 5 = 0x00#8 :=
  ⟨_, advance_of_canAdvance h _, (State.reg_setReg_same s 5 _).trans BitVec.and_zero⟩

/-- M19 -/
theorem test_ldI : after (start [] 0 0x200 0xA04F) (fun t => t.I) = some 0x004F#16 := by decide

/-- M1 -/
theorem test_addI : after (start [(0, 1), (15, 5)] 0x0FFF 0x200 0xF01E) (fun t => (t.I, t.reg 15)) = some (0x1000#16, 0x05#8) := by decide

/-- M2 -/
theorem test_addI_wraps : after (start [(0, 2)] 0xFFFF 0x200 0xF01E) (fun t => t.I) = some 0x0001#16 := by decide

/-- M3 -/
theorem test_ldF : after (start [(0, 0x0A)] 0 0x200 0xF029) (fun t => t.I) = some 0x0082#16 := by decide

/-- M4 -/
theorem test_ldF_all_bits : after (start [(0, 0xFF)] 0 0x200 0xF029) (fun t => t.I) = some 0x054B#16 := by decide

/-- S6 -/
theorem test_ldB : after (start [(0, 234)] 0x300 0x200 0xF033) (fun t => (t.mem.read 0x300, t.mem.read 0x301, t.mem.read 0x302)) = some (0x02#8, 0x03#8, 0x04#8) := by decide

/-- M9 -/
theorem test_ldB_font : after (start [(0, 123)] 0x04E 0x200 0xF033) (fun t => (t.mem.read 0x4E, t.FAULT)) = some (0x00#8, some (.memoryAccessError 0x0050)) := by decide

/-- M11 -/
theorem test_storeRegs : after (start [(0, 1), (1, 2), (2, 3)] 0x300 0x200 0xF255) (fun t => (t.mem.read 0x300, t.mem.read 0x302, t.mem.read 0x303, t.I)) = some (0x01#8, 0x03#8, 0x00#8, 0x0300#16) := by decide

/-- M14 -/
theorem test_storeRegs_font : after (start [(0, 0xAA), (1, 0xBB)] 0x04F 0x200 0xF155) (fun t => (t.mem.read 0x4F, t.FAULT)) = some (0x00#8, some (.memoryAccessError 0x0050)) := by decide

/-- M15 -/
theorem test_loadRegs : after (start [(5, 9)] 0x050 0x200 0xF465) (fun t => (t.reg 0, t.reg 1, t.reg 4, t.reg 5)) = some (0xF0#8, 0x90#8, 0xF0#8, 0x09#8) := by decide

/-- M16 -/
theorem test_loadRegs_end : after (start [(0, 9)] 0x0FFF 0x200 0xF165) (fun t => (t.reg 0, t.FAULT)) = some (0x09#8, some (.memoryAccessError 0x1000)) := by decide

/-- DR3 -/
theorem test_drw_wraps : after (withBytes (start [(0, 60)] 0x300 0x200 0xD011) 0x300 [0xFF#8]) (fun t => (pixel t.fb 0 59, pixel t.fb 0 60, pixel t.fb 0 63, pixel t.fb 0 3, pixel t.fb 0 4, t.reg 15)) = some (false, true, true, true, false, 0x00#8) := by decide

/-- DR5 -/
theorem test_drw_collides : after ({ (withBytes (start [] 0x300 0x200 0xD011) 0x300 [0xC0#8]) with fb := togglePixel clearFb (0, 1) }) (fun t => (pixel t.fb 0 0, pixel t.fb 0 1, t.reg 15)) = some (true, false, 0x01#8) := by decide

/-- K1 -/
theorem test_skp : after ({ (start [(0, 0x0A)] 0 0x200 0xE09E) with key := State.reset.key.set 10 true }) pcAndFault = some (0x0204#16, none) := by decide

/-- K7 -/
theorem test_skp_index : after (start [(0, 0x10)] 0 0xFFE 0xE09E) pcAndFault = some (0x0FFE#16, some (.keyIndexError 0x10#8)) := by decide

/-- K2 -/
theorem test_sknp : after ({ (start [(0, 0x0A)] 0 0x200 0xE0A1) with key := State.reset.key.set 10 true }) pcAndFault = some (0x0202#16, none) := by decide

/-- K4 -/
theorem test_sknp_not_pressed : after (start [(0, 0x0A)] 0 0x200 0xE0A1) pcAndFault = some (0x0204#16, none) := by decide

/-- K12 -/
theorem test_ldVxDT : after ((start [] 0 0x200 0xF307).setDT 0x3C) (fun t => t.reg 3) = some 0x3C#8 := by decide

/-- K8, first step -/
theorem test_ldVxK : after ({ (start [] 0 0x240 0xF30A) with key := State.reset.key.set 5 true }) (fun t => (t.WAIT, t.WAITX, t.reg 3, t.pc)) = some (true, 3, 0x00#8, 0x0240#16) := by decide

/-- K13 -/
theorem test_ldDTVx : after (start [(3, 0x3C)] 0 0x200 0xF315) (fun t => t.DT) = some 0x3C#8 := by decide

/-- K14 -/
theorem test_ldSTVx : after (start [(0, 5)] 0 0x200 0xF018) (fun t => t.ST) = some 0x05#8 := by decide

/-! ## The events -/

/-- K10, last event -/
theorem test_poll_lowest : after ({ (start [] 0 0x200 0xFF0A) with WAIT := true, WAITX := 15, key := (State.reset.key.set 15 true).set 3 true }) (fun t => (t.reg 15, t.WAIT, t.pc, t.key[3])) = some (0x03#8, false, 0x0202#16, true) := by decide

/-- K9 -/
theorem test_poll_end : after ({ (start [] 0 0xFFE 0xFF0A) with WAIT := true, WAITX := 15, key := State.reset.key.set 3 true }) (fun t => (t.reg 15, t.WAIT, t.FAULT)) = some (0x00#8, true, some (.memoryAccessError 0x1000)) := by decide

/-- F13 -/
theorem test_fetch_end : after (withBytes { State.reset with pc := 0x0FFF } 0xFFF [0x60#8]) pcAndFault = some (0x0FFF#16, some (.memoryAccessError 0x1000)) := by decide

/-- F20 -/
theorem test_unknown_opcode : after (start [] 0 0x200 0x5121) pcAndFault = some (0x0200#16, some (.unknownOpcode 0x0200#16 0x5121#16)) := by decide

/-- X3: the empty ROM -/
theorem test_reset_first_step : after (State.reset) pcAndFault = some (0x0200#16, some (.unknownOpcode 0x0200#16 0x0000#16)) := by decide

/-- T1, first TICK -/
theorem test_tick : after ({ State.reset with DT := 1, ST := 3, schedule := [.tick, .step] }) (fun t => (t.DT, t.ST, t.schedule)) = some (0x00#8, 0x02#8, [Event.step]) := by decide

/-- T3 -/
theorem test_tick_halted : after ({ State.reset with DT := 2, FAULT := some (.stackUnderflow 0), schedule := [.tick] }) (fun t => (t.DT, t.FAULT)) = some (0x01#8, some (.stackUnderflow 0)) := by decide

/-- R146 -/
theorem test_set_key : after ({ State.reset with schedule := [.setKey 7 true] }) (fun t => (t.key[7], t.key[8])) = some (true, false) := by decide

/-- K15 -/
theorem test_set_key_rejected : after ({ State.reset with schedule := [.setKey 16 true] }) (fun t => t.key) = some State.reset.key := by decide

/-- R33, R180 -/
theorem test_reset_loads_rom : after ({ State.reset with I := 5, FAULT := some (.stackUnderflow 0), schedule := [.reset [0x60#8, 0x05#8]] }) (fun t => (t.mem.read 0x200, t.mem.read 0x201, t.I, t.FAULT)) = some (0x60#8, 0x05#8, 0x0000#16, none) := by decide

/-- X2: a ROM of 3585 bytes. -/
theorem test_reset_oversized :
    resetEvent (List.replicate 3585 0#8) State.reset = .fault (.loadError 3585) := by
  unfold resetEvent wellFormedRom
  rw [List.length_replicate]
  rfl

/-- The instruction placed by `withFetchWord` is the one the next step runs. -/
theorem test_with_fetch_word : after (State.reset.withFetchWord 16 0x1ABC) (fun t => t.pc) = some 0x0ABC#16 := by decide

/-! ## Both settings of the two switched parameters (R137, R112) -/

theorem test_key_index_mask : keyIndex .mask 0x1A#8 = .ok 10 ∧ keyIndex .fault 0x1A#8 = .error (.keyIndexError 0x1A#8) := by
  decide
/-- The two other parameters of R4 at values that are not this hardware's (R34, R35). -/
theorem test_reset_contents : resetContents 0xAA#8 [0x11#8, 0x22#8] 0x051 = 0x22#8 ∧
    resetContents 0xAA#8 [0x11#8, 0x22#8] 0x0A0 = 0xAA#8 := by decide
/-- R150's codes. -/
theorem test_fault_codes : faultCode none = 0 ∧ [FaultRecord.unknownOpcode 0x0200#16 0x5121#16, .stackOverflow 16,
    .stackUnderflow 0, .memoryAccessError 0x1000, .keyIndexError 0x10#8].map FaultRecord.code = [1, 2, 3, 4, 5] := by decide
theorem test_index_increment : indexAfterTransfer true 0x0300#16 3 = 0x0303#16 ∧
    indexAfterTransfer false 0x0300#16 3 = 0x0300#16 := by decide

/-! ## Witnesses: concrete states and operands that meet all hypotheses of an obligation -/

theorem witness_EncodeOfDecodeIsTheWord :
    decode 0x8AB4#16 = .ok (.addReg 10 11) := by decide

/-- each clause at the edge of its range -/
theorem witness_MemReadChecksBoundsAndIsBigEndian :
    State.reset.mem.wf = true ∧ memRead State.reset.mem 0x1000 = .error (.memoryAccessError 0x1000) ∧
    memRead State.reset.mem 0xFFF = .ok 0x00#8 ∧
    memRead2 State.reset.mem 0xFFF = .error (.memoryAccessError 0x1000) ∧
    memRead2 State.reset.mem 0xFFE = .ok 0x0000#16 ∧ memRead2 State.reset.mem 0x050 = .ok 0xF090#16 ∧
    memRead (State.reset.mem.write 0xFFF 0xAB#8) 0xFFF = .ok 0xAB#8 := by decide

theorem witness_StepRunsTheDecodedInstruction :
    (start [] 0x300 0x200 0x6005).StepIsNext ∧ (start [] 0x300 0x200 0x6005).Running ∧ (start [] 0x300 0x200 0x6005).pc.toNat ≤ 0xFFE ∧
    decode (wordAt (start [] 0x300 0x200 0x6005).mem (start [] 0x300 0x200 0x6005).pc.toNat) = .ok (.ldImm 0 0x05#8) := by decide

theorem witness_UnmatchedWordLatchesUnknownOpcode :
    State.reset.StepIsNext ∧ State.reset.Running ∧ State.reset.pc.toNat ≤ 0xFFE ∧
    0x0000#16 = wordAt State.reset.mem State.reset.pc.toNat ∧ ∀ r ∈ opcodeTable, r.covers 0x0000#16 = false := by decide

theorem witness_FetchAtTheLastByteFaults :
    ({ State.reset with pc := 0x0FFF } : State).StepIsNext ∧ ({ State.reset with pc := 0x0FFF } : State).Running ∧ ({ State.reset with pc := 0x0FFF } : State).pc.toNat = 0xFFF := by decide

theorem witness_HaltedStepChangesNothing :
    ({ State.reset with FAULT := some (.stackUnderflow 0), schedule := [.step, .tick] } : State).StepIsNext ∧ ({ State.reset with FAULT := some (.stackUnderflow 0), schedule := [.step, .tick] } : State).Halted := by decide

theorem witness_FirstFaultIsKeptUntilReset :
    ({ State.reset with FAULT := some (.stackUnderflow 0), schedule := [.step, .tick] } : State).FAULT = some (.stackUnderflow 0) ∧ (∀ rom, nextEvent ({ State.reset with FAULT := some (.stackUnderflow 0), schedule := [.step, .tick] } : State) ≠ .reset rom) ∧
    step ({ State.reset with FAULT := some (.stackUnderflow 0), schedule := [.step, .tick] } : State) = .next (takeEvent ({ State.reset with FAULT := some (.stackUnderflow 0), schedule := [.step, .tick] } : State)) := ⟨rfl, fun _ h => (by cases h), rfl⟩

theorem witness_WaitingStepWithNoKeyChangesNothing :
    ({ (start [] 0 0x200 0xF30A) with WAIT := true, WAITX := 3 } : State).StepIsNext ∧ ({ (start [] 0 0x200 0xF30A) with WAIT := true, WAITX := 3 } : State).FAULT = none ∧ ({ (start [] 0 0x200 0xF30A) with WAIT := true, WAITX := 3 } : State).WAIT = true ∧ ∀ k : KeyIdx, ({ (start [] 0 0x200 0xF30A) with WAIT := true, WAITX := 3 } : State).key[k] = false := by decide

theorem witness_WaitEndsWithTheLowestPressedKey :
    ({ (start [] 0 0x240 0xF30A) with WAIT := true, WAITX := 3, key := (State.reset.key.set 9 true).set 5 true } : State).StepIsNext ∧
    ({ (start [] 0 0x240 0xF30A) with WAIT := true, WAITX := 3, key := (State.reset.key.set 9 true).set 5 true } : State).FAULT = none ∧
    ({ (start [] 0 0x240 0xF30A) with WAIT := true, WAITX := 3, key := (State.reset.key.set 9 true).set 5 true } : State).WAIT = true ∧
    ({ (start [] 0 0x240 0xF30A) with WAIT := true, WAITX := 3, key := (State.reset.key.set 9 true).set 5 true } : State).key[(5 : KeyIdx)] = true ∧
    (∀ j : KeyIdx, j < 5 → ({ (start [] 0 0x240 0xF30A) with WAIT := true, WAITX := 3, key := (State.reset.key.set 9 true).set 5 true } : State).key[j] = false) ∧
    ({ (start [] 0 0x240 0xF30A) with WAIT := true, WAITX := 3, key := (State.reset.key.set 9 true).set 5 true } : State).CanAdvance 2 := by decide

theorem witness_WaitEndsWithTheLowestPressedKey_at_the_end :
    ({ (start [] 0 0xFFE 0xF30A) with WAIT := true, WAITX := 3, key := (State.reset.key.set 9 true).set 5 true } : State).StepIsNext ∧
    ({ (start [] 0 0xFFE 0xF30A) with WAIT := true, WAITX := 3, key := (State.reset.key.set 9 true).set 5 true } : State).FAULT = none ∧
    ({ (start [] 0 0xFFE 0xF30A) with WAIT := true, WAITX := 3, key := (State.reset.key.set 9 true).set 5 true } : State).WAIT = true ∧
    ({ (start [] 0 0xFFE 0xF30A) with WAIT := true, WAITX := 3, key := (State.reset.key.set 9 true).set 5 true } : State).key[(5 : KeyIdx)] = true ∧
    (∀ j : KeyIdx, j < 5 → ({ (start [] 0 0xFFE 0xF30A) with WAIT := true, WAITX := 3, key := (State.reset.key.set 9 true).set 5 true } : State).key[j] = false) ∧
    0xFFF < ({ (start [] 0 0xFFE 0xF30A) with WAIT := true, WAITX := 3, key := (State.reset.key.set 9 true).set 5 true } : State).pc.toNat + 2 := by decide

theorem witness_TickCountsBothTimersDown :
    nextEvent { State.reset with DT := 1, schedule := [.tick] } = .tick := by decide

theorem witness_SetKeyWritesOneFlag :
    nextEvent { State.reset with schedule := [.setKey 15 true] } = .setKey 15 true ∧ (15 : KeyIdx).val = 15 := by decide

theorem witness_SetKeyWritesOneFlag_rejected :
    nextEvent { State.reset with schedule := [.setKey 16 true] } = .setKey 16 true ∧ 15 < 16 := by decide

theorem witness_ReadWritesNothing :
    nextEvent { State.reset with schedule := [.read] } = .read := by decide

theorem witness_ResetConstructsTheMachine :
    nextEvent { State.reset with I := 7, schedule := [.reset [0x12#8, 0x00#8]] } = .reset [0x12#8, 0x00#8] ∧
    [0x12#8, 0x00#8].length ≤ 0xE00 ∧ 1 < [0x12#8, 0x00#8].length ∧ (79 < 80) ∧
    ¬ (0x050 ≤ 0x0A0 ∧ 0x0A0 ≤ 0x09F) ∧ ¬ (0x200 ≤ 0x202 ∧ 0x202 < 0x200 + [0x12#8, 0x00#8].length) := by decide

theorem witness_OversizedRomIsALoadError :
    nextEvent { State.reset with schedule := [.reset (List.replicate 3585 0#8)] } = .reset (List.replicate 3585 0#8) ∧
    0xE00 < (List.replicate 3585 (0#8 : Byte)).length := ⟨rfl, by rw [List.length_replicate]; decide⟩

theorem witness_RetPopsTheCallStackIntoPc :
    ({ State.reset with SP := 16, stack := State.reset.stack.set 15 0x0FFE#16 } : State).SP.val = (15 : Fin 16).val + 1 ∧ ValidTarget (({ State.reset with SP := 16, stack := State.reset.stack.set 15 0x0FFE#16 } : State).stack[(15 : Fin 16)]).toNat := by decide

theorem witness_RetOnAnEmptyStackUnderflows :
    State.reset.SP.val = 0 := by decide

theorem witness_CallPushesTheReturnAddress :
    ({ State.reset with SP := 15 } : State).SP.val = (15 : Fin 16).val ∧ 0x200 ≤ (0x200#12).toNat := by decide

theorem witness_CallOnAFullStackOverflows :
    ({ State.reset with SP := 16 } : State).SP.val = 16 := by decide

theorem witness_JumpsSetPc :
    0x200 ≤ (0xFFF#12).toNat ∧ ValidTarget ((0x1FF#12).toNat + ((State.reset.setReg 0 1).reg 0).toNat) := by decide

theorem witness_TransfersOutsideTheProgramRegionFault :
    (0x1FF#12).toNat < 0x200 ∧ ({ State.reset with SP := 1, stack := State.reset.stack.set 0 0x1000#16 } : State).SP.val < 16 ∧
    ¬ ValidTarget ((0x1FF#12).toNat + (({ State.reset with SP := 1, stack := State.reset.stack.set 0 0x1000#16 } : State).reg 0).toNat) ∧ ({ State.reset with SP := 1, stack := State.reset.stack.set 0 0x1000#16 } : State).SP.val = (0 : Fin 16).val + 1 ∧
    ¬ ValidTarget (({ State.reset with SP := 1, stack := State.reset.stack.set 0 0x1000#16 } : State).stack[(0 : Fin 16)]).toNat := by decide

/-- equal operands at 0xFFC: the taken skip leaves the region, the other does not -/
theorem witness_SkipsCompareWithTheImmediate :
    4 = (if ({ State.reset with pc := 0x0FFC } : State).reg 0 = 0x00#8 then 4 else 2) ∧ 2 = (if ({ State.reset with pc := 0x0FFC } : State).reg 0 = 0x00#8 then 2 else 4) ∧
    ¬ ({ State.reset with pc := 0x0FFC } : State).CanAdvance 4 ∧ ({ State.reset with pc := 0x0FFC } : State).CanAdvance 2 := by decide

theorem witness_SkipsCompareWithTheImmediate_inside :
    4 = (if State.reset.reg 0 = 0x00#8 then 4 else 2) ∧ 2 = (if State.reset.reg 0 = 0x00#8 then 2 else 4) ∧
    State.reset.CanAdvance 4 ∧ State.reset.CanAdvance 2 ∧ ¬ ({ State.reset with pc := 0x0FFE } : State).CanAdvance 2 := by decide

/-- equal operands at 0xFFC: the taken skip leaves the region, the other does not -/
theorem witness_SkipsCompareTwoRegisters :
    4 = (if ({ State.reset with pc := 0x0FFC } : State).reg 0 = ({ State.reset with pc := 0x0FFC } : State).reg 1 then 4 else 2) ∧ 2 = (if ({ State.reset with pc := 0x0FFC } : State).reg 0 = ({ State.reset with pc := 0x0FFC } : State).reg 1 then 2 else 4) ∧
    ¬ ({ State.reset with pc := 0x0FFC } : State).CanAdvance 4 ∧ ({ State.reset with pc := 0x0FFC } : State).CanAdvance 2 := by decide

theorem witness_SkipsCompareTwoRegisters_inside :
    4 = (if State.reset.reg 0 = State.reset.reg 1 then 4 else 2) ∧ 2 = (if State.reset.reg 0 = State.reset.reg 1 then 2 else 4) ∧
    State.reset.CanAdvance 4 ∧ State.reset.CanAdvance 2 ∧ ¬ ({ State.reset with pc := 0x0FFE } : State).CanAdvance 2 := by decide

theorem witness_CallThenRetComesBack :
    State.reset.SP.val = (0 : Fin 16).val ∧ 0x200 ≤ (0x300#12).toNat ∧ State.reset.CanAdvance 2 := by decide

/-- The one hypothesis of ImmediateLoadAndAdd, RegisterMoveAndLogic, AddRegistersSetsCarry, SubtractionsSetNotBorrow,
ShiftsTakeVyAndSetTheShiftedOutBit, RandomIsTheDrawnByteMasked, IndexRegisterWrites, ClearTurnsEveryPixelOff and TimerMoves -/
theorem witness_advance :
    State.reset.CanAdvance 2 ∧ ({ State.reset with pc := 0x0FFD } : State).CanAdvance 2 := by decide

/-- The inner hypothesis of the flag-writing statements -/
theorem witness_x_not_vf :
    State.reset.CanAdvance 2 ∧ (0 : RegIdx) ≠ 15 := by decide

theorem witness_FontAddressPointsAtTheGlyph :
    (State.reset.setReg 0 15).CanAdvance 2 ∧ FontIntact (State.reset.setReg 0 15).mem ∧
    ((State.reset.setReg 0 15).reg 0).toNat ≤ 0xF ∧ 4 < 5 := by decide

theorem witness_BcdStoresThreeDigits :
    (start [(0, 234)] 0xFFD 0x200 0xF033).mem.wf = true ∧ dataAccessible (start [(0, 234)] 0xFFD 0x200 0xF033) (.ldB 0) ∧ (start [(0, 234)] 0xFFD 0x200 0xF033).CanAdvance 2 := ⟨by decide, show ∀ k, k < 3 → Writable (effectiveAddress _ k) by decide, by decide⟩

theorem witness_BcdDigitsObeyTheDecimalLaw :
    100 * 2 + 10 * 5 + 5 = (0xFF#8).toNat ∧ 2 ≤ 2 ∧ 5 ≤ 9 := by decide

theorem witness_StoreRegistersFromV0ToVx :
    (start [(0, 1), (15, 2)] 0xFF0 0x200 0xFF55).mem.wf = true ∧ dataAccessible (start [(0, 1), (15, 2)] 0xFF0 0x200 0xFF55) (.storeRegs 15) ∧ (start [(0, 1), (15, 2)] 0xFF0 0x200 0xFF55).CanAdvance 2 := ⟨by decide, show ∀ k, k ≤ 15 → Writable (effectiveAddress _ k) by decide, by decide⟩

/-- the third byte is the first of the font -/
theorem witness_StoresFaultAtTheLowestAddressAndStoreNothing :
    ¬ Writable (effectiveAddress (start [] 0x04E 0x200 0xF255) 2) ∧ (∀ j, j < 2 → Writable (effectiveAddress (start [] 0x04E 0x200 0xF255) j)) ∧
    2 < 3 ∧ 2 ≤ (2 : RegIdx).val := by decide

theorem witness_LoadRegistersFromV0ToVx :
    dataAccessible (start [] 0xFF0 0x200 0xFF65) (.loadRegs 15) ∧ (start [] 0xFF0 0x200 0xFF65).CanAdvance 2 := ⟨show ∀ k, k ≤ 15 → effectiveAddress _ k ≤ 0xFFF by decide, by decide⟩

theorem witness_ReadsPastTheEndFaultAtTheLowestAddress :
    0xFFF < effectiveAddress (start [] 0xFFF 0x200 0xF165) 1 ∧ (∀ j, j < 1 → effectiveAddress (start [] 0xFFF 0x200 0xF165) j ≤ 0xFFF) ∧
    1 ≤ (1 : RegIdx).val ∧ 1 < (2#4).toNat := by decide

/-- program P5 -/
theorem witness_StoredInstructionRunsNext :
    (start [(0, 0x12), (1, 0x08)] 0x208 0x206 0xF155).mem.wf = true ∧
    dataAccessible (start [(0, 0x12), (1, 0x08)] 0x208 0x206 0xF155) (.storeRegs 1) ∧
    (start [(0, 0x12), (1, 0x08)] 0x208 0x206 0xF155).CanAdvance 2 ∧ (start [(0, 0x12), (1, 0x08)] 0x208 0x206 0xF155).StepIsNext ∧
    (start [(0, 0x12), (1, 0x08)] 0x208 0x206 0xF155).Running ∧ (0 : RegIdx).val + 1 ≤ (1 : RegIdx).val ∧
    effectiveAddress (start [(0, 0x12), (1, 0x08)] 0x208 0x206 0xF155) (0 : RegIdx).val = (start [(0, 0x12), (1, 0x08)] 0x208 0x206 0xF155).pc.toNat + 2 ∧
    decode (bytesToWord ((start [(0, 0x12), (1, 0x08)] 0x208 0x206 0xF155).reg 0) ((start [(0, 0x12), (1, 0x08)] 0x208 0x206 0xF155).reg 1)) = .ok (.jp 0x208#12) := ⟨by decide, show ∀ k, k ≤ 1 → Writable (effectiveAddress _ k) by decide, by decide, by decide, by decide, by decide, by decide,
    by decide⟩

theorem witness_DrawInvertsExactlyTheSpritesPixels :
    dataAccessible (start [] 0xFFE 0x200 0xD012) (.drw 0 1 2#4) ∧ (start [] 0xFFE 0x200 0xD012).CanAdvance 2 := ⟨show ∀ k, k < 2 → effectiveAddress _ k ≤ 0xFFF by decide, by decide⟩

theorem witness_DrawInvertsExactlyTheSpritesPixels_no_rows :
    dataAccessible (start [] 0xFFFF 0x200 0xD010) (.drw 0 1 0#4) ∧ (start [] 0xFFFF 0x200 0xD010).CanAdvance 2 := ⟨show ∀ k, k < 0 → effectiveAddress _ k ≤ 0xFFF by decide, by decide⟩

/-- A lit sprite bit, over a pixel that can be on -/
theorem witness_sprite_bit :
    SpriteBitOn (start [] 0x050 0x200 0xD011) 0 1 1 0 0 ∧
    pixel (togglePixel clearFb (0, 0)) 0 0 = true := ⟨⟨0, 0, by decide⟩, by decide⟩

theorem witness_DrawingTwiceRestoresTheFramebuffer :
    (0 : RegIdx) ≠ 15 ∧ (1 : RegIdx) ≠ 15 ∧ dataAccessible (start [] 0x050 0x200 0xD015) (.drw 0 1 5#4) ∧
    (start [] 0x050 0x200 0xD015).CanAdvance 2 ∧ (start [] 0x050 0x200 0xD015).CanAdvance 4 := ⟨by decide, by decide, show ∀ k, k < 5 → effectiveAddress _ k ≤ 0xFFF by decide, by decide, by decide⟩

theorem witness_KeySkipsFollowTheKeyFlag :
    (({ (start [(0, 0x0F)] 0 0xFFC 0xE09E) with key := State.reset.key.set 15 true } : State).reg 0).toNat = (15 : KeyIdx).val ∧
    4 = (if ({ (start [(0, 0x0F)] 0 0xFFC 0xE09E) with key := State.reset.key.set 15 true } : State).key[(15 : KeyIdx)] = true then 4 else 2) ∧
    2 = (if ({ (start [(0, 0x0F)] 0 0xFFC 0xE09E) with key := State.reset.key.set 15 true } : State).key[(15 : KeyIdx)] = true then 2 else 4) ∧
    ¬ ({ (start [(0, 0x0F)] 0 0xFFC 0xE09E) with key := State.reset.key.set 15 true } : State).CanAdvance 4 ∧
    ({ (start [(0, 0x0F)] 0 0xFFC 0xE09E) with key := State.reset.key.set 15 true } : State).CanAdvance 2 := by decide

theorem witness_KeySkipsFollowTheKeyFlag_inside :
    ((start [(0, 0x0F)] 0 0x200 0xE09E).reg 0).toNat = (15 : KeyIdx).val ∧
    2 = (if (start [(0, 0x0F)] 0 0x200 0xE09E).key[(15 : KeyIdx)] = true then 4 else 2) ∧ 4 = (if (start [(0, 0x0F)] 0 0x200 0xE09E).key[(15 : KeyIdx)] = true then 2 else 4) ∧
    (start [(0, 0x0F)] 0 0x200 0xE09E).CanAdvance 2 ∧ (start [(0, 0x0F)] 0 0x200 0xE09E).CanAdvance 4 ∧ ¬ (start [(0, 0x0F)] 0 0xFFE 0xE09E).CanAdvance 2 := by decide

theorem witness_KeyIndexAboveFFaults :
    0x0F < ((State.reset.setReg 0 0x10).reg 0).toNat := by decide

/-- a timer that does rise -/
theorem witness_TimersRiseOnlyByTheirInstructions :
    (∀ rom, nextEvent (start [(3, 0x3C)] 0 0x200 0xF315) ≠ .reset rom) ∧ ∃ t, step (start [(3, 0x3C)] 0 0x200 0xF315) = .next t ∧ t.DT = 0x3C#8 ∧ ¬ t.DT.toNat ≤ (start [(3, 0x3C)] 0 0x200 0xF315).DT.toNat := ⟨fun _ h => (by cases h), _, rfl, by decide, by decide⟩

theorem witness_SequentialAdvancePastTheEndFaults :
    ¬ ({ State.reset with pc := 0x0FFE } : State).CanAdvance 2 ∧ dataAccessible ({ State.reset with pc := 0x0FFE } : State) .cls ∧ onlyAdvances .cls = true ∧
    dataAccessible ({ State.reset with pc := 0x0FFE } : State) (.storeRegs 0) ∧ dataAccessible ({ State.reset with pc := 0x0FFE } : State) (.drw 0 0 0#4) := ⟨by decide, trivial, rfl, show ∀ k, k ≤ 0 → Writable (effectiveAddress _ k) by decide, show ∀ k, k < 0 → effectiveAddress _ k ≤ 0xFFF by decide⟩

theorem witness_EveryInstructionKeepsItsFrame :
    State.reset.mem.wf = true ∧ ∃ t, exec (.addReg 0 1) State.reset = .next t := ⟨rfl, _, rfl⟩

theorem witness_EveryStepAnswersANextState :
    ∀ rom, nextEvent State.reset = .reset rom → rom.length ≤ 0xE00 := fun _ h => by cases h

theorem witness_TimersAndKeysAreReadOnlyByTheirInstructions :
    (∃ t, exec .cls State.reset = .next t) ∧ (∀ x, Instr.cls ≠ .ldVxDT x) ∧ ∀ x, Instr.cls ≠ .skp x ∧ Instr.cls ≠ .sknp x := ⟨⟨_, rfl⟩, by decide, by decide⟩

/-- a state the step takes into the wait -/
theorem witness_EveryStepKeepsTheInvariant :
    Inv (start [(3, 9)] 0x300 0x240 0xF30A) ∧ ∃ t, step (start [(3, 9)] 0x300 0x240 0xF30A) = .next t ∧ t.WAIT = true := ⟨⟨by decide, by decide, by decide, by decide, by decide, fun _ h => by cases h⟩, _, rfl, rfl⟩

/-- the end of program P1 -/
theorem witness_FinishedStateStaysAsItIs :
    (start [] 0 0x20C 0x120C).Finished ∧ 0x200 ≤ (start [] 0 0x20C 0x120C).pc.toNat ∧ (start [] 0 0x20C 0x120C).StepIsNext := ⟨⟨by decide, by decide, 0x20C#12, by decide, by decide⟩, by decide, by decide⟩

theorem witness_PlacedInstructionRunsNext :
    State.reset.mem.wf = true ∧ 0x8014 < 65536 ∧ decode (BitVec.ofNat 16 0x8014) = .ok (.addReg 0 1) := by decide

end Sys2Proof.Tests
end

section
/-! PROOFS. The events (spec/00_scope.md R3): what a `STEP` of a running core with room for a fetch does. -/

namespace Sys2Proof.Machine

/-- R70, R71: with room for a fetch, the `STEP` of a running core decodes and executes the word at pc. -/
theorem stepEvent_eq_decodeAndExecute {s : State} (hrun : s.Running) (hpc : s.pc.toNat ≤ 0xFFE) :
    stepEvent s = decodeAndExecute (wordAt s.mem s.pc.toNat) s := by
  rw [stepEvent_of_running hrun, fetch_of_le hpc]

theorem decodeAndExecute_of_decode_ok {op : Word} {i : Instr} (s : State) (hdec : decode op = .ok i) :
    decodeAndExecute op s = exec i s := by
  rw [decodeAndExecute, hdec]

/-- Settles O7: taking the `STEP` off the schedule leaves FAULT, WAIT, pc and memory as they were, so the core still runs
and the word it fetches is the one that decodes to `i`. -/
theorem stepRunsTheDecodedInstruction : Obligations.StepRunsTheDecodedInstruction := by
  intro s i hnext hrun hpc hdec
  have htaken : (takeEvent s).Running := hrun
  calc step s
    _ = stepEvent (takeEvent s) := step_of_stepIsNext hnext
    _ = decodeAndExecute (wordAt s.mem s.pc.toNat) (takeEvent s) := stepEvent_eq_decodeAndExecute htaken hpc
    _ = exec i (takeEvent s) := decodeAndExecute_of_decode_ok _ hdec

end Sys2Proof.Machine
end

section
/-! PROOFS. The meaning of an instruction in three parts, said once: the check of its own that can fail (R159), the target
its pc goes to (R72) and every other write it makes (spec/10_state.md R26). `exec` is made of the three
(`exec_of_ownFault`, `exec_of_no_ownFault`), and no later proof about all instructions unfolds a meaning again. -/

namespace Sys2Proof.Machine

/-- The fault an operation answers, if it does not succeed. -/
def faultOf {α : Type} : Except FaultRecord α → Option FaultRecord
  | .error k => some k
  | .ok _ => none

/-- The fault of an instruction's own checks, those before the range check of the new pc (R159). -/
def ownFault (i : Instr) (s : State) : Option FaultRecord :=
  match i with
  | .ret => if s.SP.val = 0 then some (.stackUnderflow 0) else none
  | .call _ => if s.SP.val = 16 then some (.stackOverflow 16) else none
  | .drw _ _ n => faultOf (readRange s.mem (effectiveAddress s 0) n.toNat)
  | .skp x | .sknp x => faultOf (keyIndex Config.keyIndexPolicy (s.reg x))
  | .ldB x => faultOf (storeBytes s.mem (effectiveAddress s 0) (bcdDigits (s.reg x)))
  | .storeRegs x => faultOf (storeBytes s.mem (effectiveAddress s 0) (s.regsUpTo x))
  | .loadRegs x => faultOf (readRange s.mem (effectiveAddress s 0) (x.val + 1))
  | _ => none

/-- The exact target an instruction writes pc with once its own checks have passed (R72 to R81); the wait stays at pc. -/
def pcTarget (i : Instr) (s : State) : Nat :=
  match i with
  | .ret => (s.stack[s.SP.val - 1]'(by omega)).toNat
  | .jp nnn | .call nnn => nnn.toNat
  | .jpV0 nnn => nnn.toNat + (s.reg 0).toNat
  | .seImm x nn => skipTarget s (s.reg x == nn)
  | .sneImm x nn => skipTarget s (s.reg x != nn)
  | .seReg x y => skipTarget s (s.reg x == s.reg y)
  | .sneReg x y => skipTarget s (s.reg x != s.reg y)
  | .skp x => skipTarget s s.key[Fin.ofNat 16 (s.reg x).toNat]
  | .sknp x => skipTarget s (!s.key[Fin.ofNat 16 (s.reg x).toNat])
  | .ldVxK _ => s.pc.toNat
  | _ => s.pc.toNat + 2

/-- The `n` bytes from I on (R38). -/
def bytesFromI (s : State) (n : Nat) : List Byte := (List.range n).map fun k => s.mem.read (effectiveAddress s 0 + k)

/-- The pixels the 1 bits of the sprite of `Dxyn` fall on (R127). -/
def drawnCells (x y : RegIdx) (n : BitVec 4) (s : State) : List (Row × Col) :=
  spriteCells (spriteX (s.reg x)) (spriteY (s.reg y)) (bytesFromI s n.toNat)

/-- An entry put on top of the stack, where there is room (R76). -/
def State.pushed (s : State) (v : Word) : State :=
  { s with stack := s.stack.setIfInBounds s.SP.val v, SP := Fin.ofNat 17 (s.SP.val + 1) }

/-- The top entry taken off the stack, where there is one (R74). -/
def State.popped (s : State) : State := { s with SP := ⟨s.SP.val - 1, by omega⟩ }

/-- Every write an instruction makes but that of pc, once its own checks have passed. -/
def effect (i : Instr) (s : State) : State :=
  match i with
  | .cls => s.setFb clearFb
  | .ret => s.popped
  | .call _ => s.pushed (BitVec.ofNat 16 (s.pc.toNat + 2))
  | .jp _ | .jpV0 _ | .seImm _ _ | .sneImm _ _ | .seReg _ _ | .sneReg _ _ | .skp _ | .sknp _ => s
  | .ldImm x nn => s.setReg x nn
  | .addImm x nn => s.setReg x (s.reg x + nn)
  | .ldReg x y => s.setReg x (s.reg y)
  | .orReg x y => s.setReg x (s.reg x ||| s.reg y)
  | .andReg x y => s.setReg x (s.reg x &&& s.reg y)
  | .xorReg x y => s.setReg x (s.reg x ^^^ s.reg y)
  | .addReg x y => (s.setReg x (s.reg x + s.reg y)).setReg 15 (carryFlag (s.reg x) (s.reg y))
  | .subReg x y => (s.setReg x (s.reg x - s.reg y)).setReg 15 (notBorrowFlag (s.reg x) (s.reg y))
  | .shrReg x y => (s.setReg x (s.reg y >>> 1)).setReg 15 (shiftedOutRight (s.reg y))
  | .subnReg x y => (s.setReg x (s.reg y - s.reg x)).setReg 15 (notBorrowFlag (s.reg y) (s.reg x))
  | .shlReg x y => (s.setReg x (s.reg y <<< 1)).setReg 15 (shiftedOutLeft (s.reg y))
  | .ldI nnn => s.setI (nnn.setWidth 16)
  | .rnd x nn => (s.setReg x (randomOperand s &&& nn)).nextDraw
  | .drw x y n =>
    (s.setFb (drawCells s.fb (drawnCells x y n s))).setReg 15 (flagByte (spriteHit s.fb (drawnCells x y n s)))
  | .ldVxDT x => s.setReg x s.DT
  | .ldVxK x => { s with WAIT := true, WAITX := x }
  | .ldDTVx x => s.setDT (s.reg x)
  | .ldSTVx x => s.setST (s.reg x)
  | .addI x => s.setI (s.I + (s.reg x).setWidth 16)
  | .ldF x => s.setI (glyphAddress (s.reg x))
  | .ldB x => s.setMem (s.mem.writeBytes (effectiveAddress s 0) (bcdDigits (s.reg x)))
  | .storeRegs x => s.setMem (s.mem.writeBytes (effectiveAddress s 0) (s.regsUpTo x))
  | .loadRegs x => s.loadRegs (bytesFromI s (x.val + 1))

/-! ### What the shared operations answer when they do not fault -/

theorem faultOf_eq_none {α : Type} {r : Except FaultRecord α} (h : faultOf r = none) : ∃ a, r = .ok a := by
  cases r with
  | error k => cases h
  | ok a => exact ⟨a, rfl⟩

theorem faultOf_eq_some {α : Type} {r : Except FaultRecord α} {k : FaultRecord} (h : faultOf r = some k) :
    r = .error k := by
  cases r with
  | error k' => cases h; rfl
  | ok a => cases h

/-- Reads that do not fault are of `n` bytes inside the bank, and give them (R38). -/
theorem readRange_of_ok {s : State} {n : Nat} {rows : List Byte}
    (h : readRange s.mem (effectiveAddress s 0) n = .ok rows) : rows = bytesFromI s n := by
  by_cases hin : n = 0 ∨ effectiveAddress s 0 + n ≤ 0x1000
  · rw [readRange_ok s.mem hin] at h; cases h; rfl
  · rw [readRange_err s.mem (by omega) (by omega)] at h; cases h

/-- A store that does not fault is to writable bytes, and stores them all (R37). -/
theorem storeBytes_of_ok {m m' : Memory} {a : Nat} {bytes : List Byte} (h : storeBytes m a bytes = .ok m') :
    (∀ k, k < bytes.length → Writable (a + k)) ∧ m' = m.writeBytes a bytes := by
  rcases storeBytes_cases m a bytes with ⟨hall, heq⟩ | ⟨k, -, -, -, heq⟩
  · rw [heq] at h; cases h; exact ⟨hall, rfl⟩
  · rw [heq] at h; cases h

/-- The bytes a store instruction is to write are writable when its own check passes. -/
theorem writable_of_faultOf_storeBytes {m : Memory} {a : Nat} {bytes : List Byte}
    (h : faultOf (storeBytes m a bytes) = none) : ∀ k, k < bytes.length → Writable (a + k) := by
  obtain ⟨m', hm⟩ := faultOf_eq_none h
  exact (storeBytes_of_ok hm).1

/-- A key index that does not fault is Vx's value as it stands (R137). -/
theorem keyIndex_of_ok {v : Byte} {j : KeyIdx} (h : keyIndex Config.keyIndexPolicy v = .ok j) :
    j = Fin.ofNat 16 v.toNat := by
  by_cases hv : v.toNat ≤ 0x0F
  · rw [keyIndex_of_le _ hv] at h; cases h; rfl
  · rw [keyIndex_of_gt (by omega)] at h; cases h

theorem push_eq_pushed {s : State} (h : s.SP.val ≠ 16) (v : Word) : s.push v = .ok (s.pushed v) := by
  have hlt : s.SP.val < 16 := by omega
  rw [push_of_lt hlt, State.pushed]
  have hsp : (⟨s.SP.val + 1, by omega⟩ : Fin 17) = Fin.ofNat 17 (s.SP.val + 1) :=
    Fin.ext (Nat.mod_eq_of_lt (by omega)).symm
  have hstack : s.stack.set s.SP.val v = s.stack.setIfInBounds s.SP.val v :=
    Vector.ext fun k hk => by simp only [Vector.getElem_set, Vector.getElem_setIfInBounds]
  rw [hsp, hstack]

theorem pop_eq_popped {s : State} (h : s.SP.val ≠ 0) :
    s.pop = .ok (s.stack[s.SP.val - 1]'(by omega), s.popped) := pop_of_pos (Nat.pos_of_ne_zero h)

theorem ownFault_ret_some {s : State} {k : FaultRecord} (h : ownFault .ret s = some k) :
    s.SP.val = 0 ∧ k = .stackUnderflow 0 := by
  simpa [ownFault, eq_comm] using h

theorem ownFault_call_some {s : State} {nnn : BitVec 12} {k : FaultRecord} (h : ownFault (.call nnn) s = some k) :
    s.SP.val = 16 ∧ k = .stackOverflow 16 := by
  simpa [ownFault, eq_comm] using h

theorem ownFault_ret_none {s : State} (h : ownFault .ret s = none) : s.SP.val ≠ 0 :=
  fun hempty => by simp [ownFault, hempty] at h

theorem ownFault_call_none {s : State} {nnn : BitVec 12} (h : ownFault (.call nnn) s = none) : s.SP.val ≠ 16 :=
  fun hfull => by simp [ownFault, hfull] at h

/-! ### `exec` in its three parts -/

/-- An instruction whose own check fails raises that fault and does nothing else (R151, R159). -/
theorem exec_of_ownFault {i : Instr} {s : State} {k : FaultRecord} (h : ownFault i s = some k) : exec i s = raise k s := by
  cases i with
  | ret =>
    obtain ⟨hempty, rfl⟩ := ownFault_ret_some h
    show execRet s = _
    rw [execRet, pop_of_empty hempty]
  | call nnn =>
    obtain ⟨hfull, rfl⟩ := ownFault_call_some h
    show execCall nnn s = _
    rw [execCall, push_of_full hfull]
  | drw x y n => show execDrw x y n s = _; rw [execDrw, faultOf_eq_some h]
  | skp x => show execSkp x s = _; rw [execSkp, faultOf_eq_some h]
  | sknp x => show execSknp x s = _; rw [execSknp, faultOf_eq_some h]
  | ldB x => show execLdB x s = _; rw [execLdB, faultOf_eq_some h]
  | storeRegs x => show execStoreRegs x s = _; rw [execStoreRegs, faultOf_eq_some h]
  | loadRegs x => show execLoadRegs x s = _; rw [execLoadRegs, faultOf_eq_some h]
  | _ => cases h

/-- An instruction whose own checks pass ends by writing pc with its target around its other writes (R72); all but
`LD Vx, K`, which writes no pc. -/
theorem exec_of_no_ownFault {i : Instr} {s : State} (hk : ∀ x, i ≠ .ldVxK x) (h : ownFault i s = none) :
    exec i s = finish (pcTarget i s) (effect i s) s := by
  cases i with
  | ret =>
    show execRet s = _
    rw [execRet, pop_eq_popped (ownFault_ret_none h)]
    rfl
  | call nnn =>
    show execCall nnn s = _
    rw [execCall, push_eq_pushed (ownFault_call_none h)]
    rfl
  | drw x y n =>
    obtain ⟨rows, hrows⟩ := faultOf_eq_none h
    show execDrw x y n s = _
    rw [execDrw, hrows, readRange_of_ok hrows]
    rfl
  | skp x =>
    obtain ⟨j, hj⟩ := faultOf_eq_none h
    show execSkp x s = _
    rw [execSkp, hj, keyIndex_of_ok hj]
    rfl
  | sknp x =>
    obtain ⟨j, hj⟩ := faultOf_eq_none h
    show execSknp x s = _
    rw [execSknp, hj, keyIndex_of_ok hj]
    rfl
  | ldB x =>
    obtain ⟨m, hm⟩ := faultOf_eq_none h
    show execLdB x s = _
    rw [execLdB, hm, (storeBytes_of_ok hm).2]
    rfl
  | storeRegs x =>
    obtain ⟨m, hm⟩ := faultOf_eq_none h
    show execStoreRegs x s = _
    rw [execStoreRegs, hm, (storeBytes_of_ok hm).2]
    rfl
  | loadRegs x =>
    obtain ⟨bytes, hbytes⟩ := faultOf_eq_none h
    show execLoadRegs x s = _
    rw [execLoadRegs, hbytes, readRange_of_ok hbytes]
    rfl
  | ldVxK x => exact absurd rfl (hk x)
  | _ => rfl

/-! ### The faults tell the truth (R150) -/

/-- A load that faults reports an address past the bank (R154). -/
theorem coherent_of_readRange {s : State} {n : Nat} {k : FaultRecord}
    (h : readRange s.mem (effectiveAddress s 0) n = .error k) : k.Coherent s := by
  by_cases hin : n = 0 ∨ effectiveAddress s 0 + n ≤ 0x1000
  · rw [readRange_ok s.mem hin] at h; cases h
  · rw [readRange_err s.mem (by omega) (by omega)] at h; cases h
    have hle : effectiveAddress s 0 ≤ 0x1000E := effectiveAddress_le (by omega)
    exact coherent_memoryAccessError (by omega)

/-- A store that faults reports an address that is not writable: in the font or past the bank (R37, R154). -/
theorem coherent_of_storeBytes {s : State} {bytes : List Byte} {k : FaultRecord} (hlen : bytes.length ≤ 16)
    (h : storeBytes s.mem (effectiveAddress s 0) bytes = .error k) : k.Coherent s := by
  rcases storeBytes_cases s.mem (effectiveAddress s 0) bytes with ⟨-, hok⟩ | ⟨j, hj, hnw, -, herr⟩
  · rw [hok] at h; cases h
  · rw [herr] at h; cases h
    have hle : effectiveAddress s 0 + j ≤ 0x1000E := effectiveAddress_le (s := s) (by omega)
    exact coherent_memoryAccessError ⟨by unfold Writable at hnw; omega, hle⟩

/-- A key index that faults is above 0xF (R157). -/
theorem coherent_of_keyIndex {s : State} {v : Byte} {k : FaultRecord}
    (h : keyIndex Config.keyIndexPolicy v = .error k) : k.Coherent s := by
  by_cases hv : v.toNat ≤ 0x0F
  · rw [keyIndex_of_le _ hv] at h; cases h
  · rw [keyIndex_of_gt (by omega)] at h; cases h
    exact Nat.lt_of_not_le hv

/-- Every fault of an instruction's own checks tells the truth (R150, R154 to R157). -/
theorem ownFault_coherent {i : Instr} {s : State} {k : FaultRecord} (h : ownFault i s = some k) : k.Coherent s := by
  cases i with
  | ret =>
    obtain ⟨hempty, rfl⟩ := ownFault_ret_some h
    exact ⟨rfl, hempty⟩
  | call nnn =>
    obtain ⟨hfull, rfl⟩ := ownFault_call_some h
    exact ⟨rfl, hfull⟩
  | skp _ | sknp _ => exact coherent_of_keyIndex (faultOf_eq_some h)
  | ldB x => exact coherent_of_storeBytes (by rw [bcdDigits_length]; omega) (faultOf_eq_some h)
  | storeRegs x => exact coherent_of_storeBytes (by rw [State.length_regsUpTo]; omega) (faultOf_eq_some h)
  | drw _ _ _ | loadRegs _ => exact coherent_of_readRange (faultOf_eq_some h)
  | _ => cases h

/-- The target of a skip, at most 4 past any 16-bit pc. -/
theorem skipTarget_le (s : State) (c : Bool) : skipTarget s c ≤ 0x1000E := by
  have hpc := s.pc.isLt
  cases c with
  | false => show s.pc.toNat + 2 ≤ _; omega
  | true => show s.pc.toNat + 4 ≤ _; omega

/-- No target exceeds what a record of R150 can hold. -/
theorem pcTarget_le (i : Instr) (s : State) : pcTarget i s ≤ 0x1000E := by
  have hpc := s.pc.isLt
  cases i with
  | ret => show BitVec.toNat _ ≤ _; omega
  | jp nnn | call nnn => show nnn.toNat ≤ _; omega
  | jpV0 nnn => show nnn.toNat + (s.reg 0).toNat ≤ _; omega
  | seImm _ _ | sneImm _ _ | seReg _ _ | sneReg _ _ | skp _ | sknp _ => exact skipTarget_le s _
  | ldVxK x => show s.pc.toNat ≤ _; omega
  | _ => show s.pc.toNat + 2 ≤ _; omega

/-- All that an instruction can do (R72, R151, R159): latch a fault that tells the truth and nothing else, or make all
its writes with pc at its target, which only the wait does not check. -/
theorem exec_cases {i : Instr} {s t : State} (h : exec i s = .next t) :
    (∃ k : FaultRecord, k.Coherent s ∧ t = { s with FAULT := some k }) ∨
    (ownFault i s = none ∧ t = { effect i s with pc := BitVec.ofNat 16 (pcTarget i s) }) := by
  rcases hf : ownFault i s with _ | k
  · by_cases hk : ∃ x, i = .ldVxK x
    · obtain ⟨x, rfl⟩ := hk
      cases h
      exact .inr ⟨rfl, by simp [pcTarget, effect]⟩
    · rw [exec_of_no_ownFault (fun x hx => hk ⟨x, hx⟩) hf] at h
      rcases finish_cases h with ⟨-, rfl⟩ | ⟨hv, rfl⟩
      · exact .inr ⟨rfl, rfl⟩
      · have := pcTarget_le i s
        exact .inl ⟨_, coherent_memoryAccessError (by omega), rfl⟩
  · rw [exec_of_ownFault hf] at h
    cases h
    exact .inl ⟨k, ownFault_coherent hf, rfl⟩

end Sys2Proof.Machine
end

section
/-! PROOFS. The frame of every instruction (spec/10_state.md R26): which parts each state operation leaves as they were,
and from that which parts `effect` does. -/

namespace Sys2Proof.Machine

/-! ### What one state operation leaves unchanged -/

theorem same_part_refl (s : State) (p : Part) : p.same s s := by cases p <;> rfl

theorem setPc_same_part (s : State) (v : Word) {p : Part} (h : p ≠ .pc) : p.same s { s with pc := v } := by
  cases p with
  | pc => exact absurd rfl h
  | _ => rfl

theorem setI_same_part (s : State) (v : Word) {p : Part} (h : p ≠ .index) : p.same s (s.setI v) := by
  cases p with
  | index => exact absurd rfl h
  | _ => rfl

theorem setDT_same_part (s : State) (v : Byte) {p : Part} (h : p ≠ .dt) : p.same s (s.setDT v) := by
  cases p with
  | dt => exact absurd rfl h
  | _ => rfl

theorem setST_same_part (s : State) (v : Byte) {p : Part} (h : p ≠ .st) : p.same s (s.setST v) := by
  cases p with
  | st => exact absurd rfl h
  | _ => rfl

theorem nextDraw_same_part (s : State) {p : Part} (h : p ≠ .draws) : p.same s s.nextDraw := by
  cases p with
  | draws => exact absurd rfl h
  | _ => rfl

theorem setFb_same_part (s : State) (fb : Framebuffer) {p : Part} (h : ∀ r c, p ≠ .pixel r c) :
    p.same s (s.setFb fb) := by
  cases p with
  | pixel r c => exact absurd rfl (h r c)
  | _ => rfl

theorem popped_same_part (s : State) {p : Part} (h : p ≠ .sp) : p.same s s.popped := by
  cases p with
  | sp => exact absurd rfl h
  | _ => rfl

theorem pushed_same_part (s : State) (v : Word) {p : Part} (hsp : p ≠ .sp)
    (hentry : ∀ k : Fin 16, k.val = s.SP.val → p ≠ .stackEntry k) : p.same s (s.pushed v) := by
  cases p with
  | sp => exact absurd rfl hsp
  | stackEntry k =>
    have hne : s.SP.val ≠ k.val := fun he => hentry k he.symm rfl
    exact Vector.getElem_setIfInBounds_ne (by omega) hne
  | _ => rfl

theorem enterWait_same_part (s : State) (x : RegIdx) {p : Part} (hw : p ≠ .wait) (hx : p ≠ .waitX) :
    p.same s { s with WAIT := true, WAITX := x } := by
  cases p with
  | wait => exact absurd rfl hw
  | waitX => exact absurd rfl hx
  | _ => rfl

theorem setTwoRegs_same_part (s : State) {x y : RegIdx} (v w : Byte) {p : Part} (hx : p ≠ .reg x) (hy : p ≠ .reg y) :
    p.same s ((s.setReg x v).setReg y w) :=
  same_part_trans (setReg_same_part s v hx) (setReg_same_part _ w hy)

/-- A load of a list of bytes leaves every register past its end as it was (R117). -/
theorem loadRegs_same_part (s : State) (bytes : List Byte) {p : Part}
    (h : ∀ r : RegIdx, r.val < bytes.length → p ≠ .reg r) : p.same s (s.loadRegs bytes) := by
  cases p with
  | reg r =>
    have hlen : bytes.length ≤ r.val := Nat.le_of_not_lt fun hlt => h r hlt rfl
    show (s.loadRegs bytes).reg r = s.reg r
    rw [State.reg_loadRegs, List.getElem?_eq_none hlen, Option.getD_none]
  | _ => simp [Part.same]

/-- A store to writable bytes leaves every byte outside its range as it was (R37); of the bank only, memory being
canonical. -/
theorem storeFromI_same_part (s : State) {bytes : List Byte} {p : Part} (hne : 0 < bytes.length)
    (hw : ∀ k, k < bytes.length → Writable (effectiveAddress s 0 + k))
    (h : ∀ k, k < bytes.length → p ≠ .byte (effectiveAddress s k)) (hwf : ∀ a, p = .byte a → s.mem.wf = true) :
    p.same s (s.setMem (s.mem.writeBytes (effectiveAddress s 0) bytes)) := by
  cases p with
  | byte a =>
    show (s.mem.writeBytes _ bytes).read a = s.mem.read a
    rw [Memory.read_writeBytes (hwf a rfl) (le_memSize_of_writable hne hw), if_neg]
    rintro ⟨hle, hlt⟩
    refine h (a - effectiveAddress s 0) (by omega) (congrArg Part.byte ?_)
    unfold effectiveAddress at hle ⊢
    omega
  | _ => rfl

/-! ### What an instruction's writes leave unchanged -/

/-- R26: the writes of an instruction, pc aside, leave every part its row does not list as it was. -/
theorem effect_same {i : Instr} {s : State} {p : Part} (hno : ownFault i s = none) (hp : ¬ mayWrite s i p)
    (hwf : ∀ a, p = .byte a → s.mem.wf = true) : p.same s (effect i s) := by
  cases i with
  | cls => exact setFb_same_part s _ fun r c he => hp (Or.inr ⟨r, c, he⟩)
  | ret => exact popped_same_part s fun he => hp (Or.inr he)
  | call nnn =>
    exact pushed_same_part s _ (fun he => hp (Or.inr (Or.inl he))) fun k hk he => hp (Or.inr (Or.inr ⟨k, hk, he⟩))
  | jp _ | jpV0 _ | seImm _ _ | sneImm _ _ | seReg _ _ | sneReg _ _ | skp _ | sknp _ => exact same_part_refl s p
  | ldImm _ _ | addImm _ _ | ldReg _ _ | orReg _ _ | andReg _ _ | xorReg _ _ | ldVxDT _ =>
    exact setReg_same_part s _ fun he => hp (Or.inr he)
  | addReg _ _ | subReg _ _ | shrReg _ _ | subnReg _ _ | shlReg _ _ =>
    exact setTwoRegs_same_part s _ _ (fun he => hp (Or.inr (Or.inl he))) fun he => hp (Or.inr (Or.inr he))
  | ldI _ | addI _ | ldF _ => exact setI_same_part s _ fun he => hp (Or.inr he)
  | rnd x nn =>
    exact same_part_trans (setReg_same_part s _ fun he => hp (Or.inr (Or.inl he)))
      (nextDraw_same_part _ fun he => hp (Or.inr (Or.inr he)))
  | drw x y n =>
    exact same_part_trans (setFb_same_part s _ fun r c he => hp (Or.inr (Or.inr ⟨r, c, he⟩)))
      (setReg_same_part _ _ fun he => hp (Or.inr (Or.inl he)))
  | ldVxK x => exact enterWait_same_part s x (fun he => hp (Or.inl he)) fun he => hp (Or.inr he)
  | ldDTVx x => exact setDT_same_part s _ fun he => hp (Or.inr he)
  | ldSTVx x => exact setST_same_part s _ fun he => hp (Or.inr he)
  | ldB x =>
    exact storeFromI_same_part s (Nat.zero_lt_succ _) (writable_of_faultOf_storeBytes hno)
      (fun k hk he => hp (Or.inr ⟨k, hk, he⟩)) hwf
  | storeRegs x =>
    have hlen := s.length_regsUpTo x
    exact storeFromI_same_part s (by omega) (writable_of_faultOf_storeBytes hno)
      (fun k hk he => hp (Or.inr ⟨k, by omega, he⟩)) hwf
  | loadRegs x =>
    refine loadRegs_same_part s _ fun r hr he => hp (Or.inr ⟨r, ?_, he⟩)
    rw [bytesFromI, List.length_map, List.length_range] at hr
    exact Fin.le_def.mpr (by omega)

/-- No row of R26 lists FAULT. -/
theorem not_mayWrite_fault (s : State) (i : Instr) : ¬ mayWrite s i .fault := by cases i <;> simp [mayWrite]

/-- Every row of R26 lists pc but that of `LD Vx, K`, whose target is the pc it stands on (R139). -/
theorem mayWrite_pc_or_stays (s : State) (i : Instr) : mayWrite s i .pc ∨ pcTarget i s = s.pc.toNat := by
  cases i with
  | ldVxK x => exact .inr rfl
  | jp _ | jpV0 _ | seImm _ _ | sneImm _ _ | seReg _ _ | sneReg _ _ | skp _ | sknp _ => exact .inl rfl
  | _ => exact .inl (Or.inl rfl)

/-- R26: an instruction that completes leaves every part its row does not list as it was. -/
theorem completed_same {i : Instr} {s : State} {p : Part} (hno : ownFault i s = none) (hp : ¬ mayWrite s i p)
    (hwf : ∀ a, p = .byte a → s.mem.wf = true) :
    p.same s { effect i s with pc := BitVec.ofNat 16 (pcTarget i s) } := by
  by_cases hpc : p = .pc
  · subst hpc
    have hstays := (mayWrite_pc_or_stays s i).resolve_left hp
    show BitVec.ofNat 16 (pcTarget i s) = s.pc
    rw [hstays, BitVec.ofNat_toNat, BitVec.setWidth_eq]
  · exact same_part_trans (effect_same hno hp hwf) (setPc_same_part _ _ hpc)

/-- Settles O53: a fault latches its record alone, and a completed instruction writes only its row of R26. -/
theorem everyInstructionKeepsItsFrame : Obligations.EveryInstructionKeepsItsFrame := by
  intro i s t hwf h
  rcases exec_cases h with ⟨k, -, rfl⟩ | ⟨hno, rfl⟩
  · exact .inl ⟨k, latchesOnly_of_eq k s⟩
  · have hframe : UnchangedOutside (mayWrite s i) s { effect i s with pc := BitVec.ofNat 16 (pcTarget i s) } :=
      fun p hp => completed_same hno hp fun _ _ => hwf
    exact .inr ⟨hframe .fault (not_mayWrite_fault s i), hframe⟩

end Sys2Proof.Machine
end

section
/-! PROOFS. Who writes and who reads the timers and the key flags (spec/10_state.md R17, R19, R26). -/

namespace Sys2Proof.Machine

/-! ### Writing the timers and the keys -/

/-- What DT is after the writes of an instruction that finds `dt` there: `LD DT, Vx` alone writes it (R142). -/
def dtAfter (i : Instr) (s : State) (dt : Byte) : Byte :=
  match i with
  | .ldDTVx x => s.reg x
  | _ => dt

/-- What ST is after the writes of an instruction that finds `st` there: `LD ST, Vx` alone writes it (R143). -/
def stAfter (i : Instr) (s : State) (st : Byte) : Byte :=
  match i with
  | .ldSTVx x => s.reg x
  | _ => st

theorem dtAfter_eq_or (i : Instr) (s : State) (dt : Byte) :
    dtAfter i s dt = dt ∨ ∃ x, i = .ldDTVx x ∧ dtAfter i s dt = s.reg x := by
  cases i with
  | ldDTVx x => exact .inr ⟨x, rfl, rfl⟩
  | _ => exact .inl rfl

theorem stAfter_eq_or (i : Instr) (s : State) (st : Byte) :
    stAfter i s st = st ∨ ∃ x, i = .ldSTVx x ∧ stAfter i s st = s.reg x := by
  cases i with
  | ldSTVx x => exact .inr ⟨x, rfl, rfl⟩
  | _ => exact .inl rfl

theorem effect_DT (i : Instr) (s : State) : (effect i s).DT = dtAfter i s s.DT := by cases i <;> rfl

theorem effect_ST (i : Instr) (s : State) : (effect i s).ST = stAfter i s s.ST := by cases i <;> rfl

theorem effect_key (i : Instr) (s : State) : (effect i s).key = s.key := by cases i <;> rfl

/-- No instruction writes a key flag (R19). -/
theorem exec_key {i : Instr} {s t : State} (h : exec i s = .next t) : t.key = s.key := by
  rcases exec_cases h with ⟨k, -, rfl⟩ | ⟨-, rfl⟩
  · rfl
  · exact effect_key i s

/-- An instruction leaves DT as it was unless it is `LD DT, Vx` (R142). -/
theorem exec_DT {i : Instr} {s t : State} (h : exec i s = .next t) :
    t.DT = s.DT ∨ ∃ x, i = .ldDTVx x ∧ t.DT = s.reg x := by
  rcases exec_cases h with ⟨k, -, rfl⟩ | ⟨-, rfl⟩
  · exact .inl rfl
  · show (effect i s).DT = s.DT ∨ ∃ x, i = .ldDTVx x ∧ (effect i s).DT = s.reg x
    rw [effect_DT]
    exact dtAfter_eq_or i s s.DT

/-- An instruction leaves ST as it was unless it is `LD ST, Vx` (R143). -/
theorem exec_ST {i : Instr} {s t : State} (h : exec i s = .next t) :
    t.ST = s.ST ∨ ∃ x, i = .ldSTVx x ∧ t.ST = s.reg x := by
  rcases exec_cases h with ⟨k, -, rfl⟩ | ⟨-, rfl⟩
  · exact .inl rfl
  · show (effect i s).ST = s.ST ∨ ∃ x, i = .ldSTVx x ∧ (effect i s).ST = s.reg x
    rw [effect_ST]
    exact stAfter_eq_or i s s.ST

/-- The wait poll leaves both timers alone (R140). -/
theorem pollWait_timers {s t : State} (h : pollWait s = .next t) : t.DT = s.DT ∧ t.ST = s.ST := by
  rcases pollWait_cases h with ⟨-, rfl⟩ | ⟨k, -, -, rfl⟩ | ⟨-, rfl⟩ <;> exact ⟨rfl, rfl⟩

/-- A `STEP` leaves both timers alone but where a running core executes the instruction that writes one (R17). -/
theorem stepEvent_timers {s t : State} (h : stepEvent s = .next t) :
    (t.DT = s.DT ∨ (s.Running ∧ ∃ x, decode (wordAt s.mem s.pc.toNat) = .ok (.ldDTVx x) ∧ t.DT = s.reg x)) ∧
    (t.ST = s.ST ∨ (s.Running ∧ ∃ x, decode (wordAt s.mem s.pc.toNat) = .ok (.ldSTVx x) ∧ t.ST = s.reg x)) := by
  rcases stepEvent_cases h with ⟨-, rfl⟩ | ⟨-, -, hpoll⟩ | ⟨hrun, -, i, hdec, hexec⟩ | ⟨-, -, -, rfl⟩ | ⟨-, -, rfl⟩
  · exact ⟨.inl rfl, .inl rfl⟩
  · obtain ⟨hDT, hST⟩ := pollWait_timers hpoll
    exact ⟨.inl hDT, .inl hST⟩
  · constructor
    · rcases exec_DT hexec with hkeep | ⟨x, rfl, hwrite⟩
      · exact .inl hkeep
      · exact .inr ⟨hrun, x, hdec, hwrite⟩
    · rcases exec_ST hexec with hkeep | ⟨x, rfl, hwrite⟩
      · exact .inl hkeep
      · exact .inr ⟨hrun, x, hdec, hwrite⟩
  · exact ⟨.inl rfl, .inl rfl⟩
  · exact ⟨.inl rfl, .inl rfl⟩

/-- An accepted or a rejected `SET_KEY` leaves everything but the key flags alone (R146). -/
theorem setKeyEvent_eq (index : Nat) (p : Bool) (s : State) :
    setKeyEvent index p s = { s with key := (setKeyEvent index p s).key } := by
  unfold setKeyEvent
  split <;> rfl

theorem setKeyEvent_DT (index : Nat) (p : Bool) (s : State) : (setKeyEvent index p s).DT = s.DT := by
  rw [setKeyEvent_eq]

theorem setKeyEvent_ST (index : Nat) (p : Bool) (s : State) : (setKeyEvent index p s).ST = s.ST := by
  rw [setKeyEvent_eq]

/-- The flags after `SET_KEY` are a function of the flags before. -/
theorem setKeyEvent_key_congr {s t : State} (h : t.key = s.key) (index : Nat) (p : Bool) :
    (setKeyEvent index p t).key = (setKeyEvent index p s).key := by
  unfold setKeyEvent
  split <;> simp only [h]

/-- Settles O51: of the events but `RESET`, a `TICK` counts down and only a `STEP` that runs `LD DT, Vx` or `LD ST, Vx`
writes a timer otherwise. -/
theorem timersRiseOnlyByTheirInstructions : Obligations.TimersRiseOnlyByTheirInstructions := by
  intro s t hreset h
  unfold step at h
  cases he : nextEvent s with
  | step =>
    rw [he] at h
    obtain ⟨hDT, hST⟩ := stepEvent_timers h
    exact ⟨hDT.imp (fun hkeep => (congrArg BitVec.toNat hkeep).le) (⟨he, ·⟩),
      hST.imp (fun hkeep => (congrArg BitVec.toNat hkeep).le) (⟨he, ·⟩)⟩
  | tick =>
    rw [he] at h
    cases h
    constructor
    · exact .inl ((countDown_toNat s.DT).trans_le (Nat.sub_le _ _))
    · exact .inl ((countDown_toNat s.ST).trans_le (Nat.sub_le _ _))
  | setKey index p =>
    rw [he] at h
    cases h
    constructor
    · exact .inl (congrArg BitVec.toNat (setKeyEvent_DT index p (takeEvent s))).le
    · exact .inl (congrArg BitVec.toNat (setKeyEvent_ST index p (takeEvent s))).le
  | read =>
    rw [he] at h
    cases h
    exact ⟨.inl le_rfl, .inl le_rfl⟩
  | reset rom => exact absurd he (hreset rom)

/-! ### Reading the timers and the keys -/

/-- The state with other timers and other key flags: what a `TICK` or a `SET_KEY` can change. -/
def State.withTimersAndKeys (s : State) (dt st : Byte) (key : Vector Bool 16) : State :=
  { s with DT := dt, ST := st, key := key }

section
variable {i : Instr} {s : State} {dt st : Byte} {key : Vector Bool 16}

/-- No instruction's own check looks at a timer or a key flag. -/
theorem ownFault_withTimersAndKeys : ownFault i (s.withTimersAndKeys dt st key) = ownFault i s := by
  cases i <;> rfl

/-- Only `Ex9E` and `ExA1` go where a key flag says (R135, R136). -/
theorem pcTarget_withTimersAndKeys (hkey : (∃ x, i = .skp x ∨ i = .sknp x) → key = s.key) :
    pcTarget i (s.withTimersAndKeys dt st key) = pcTarget i s := by
  cases i with
  | skp x => rw [hkey ⟨x, .inl rfl⟩]; rfl
  | sknp x => rw [hkey ⟨x, .inr rfl⟩]; rfl
  | _ => rfl

/-- Only `Fx07` writes what DT says (R138). -/
theorem effect_withTimersAndKeys (hdt : (∃ x, i = .ldVxDT x) → dt = s.DT) :
    effect i (s.withTimersAndKeys dt st key) =
      (effect i s).withTimersAndKeys (dtAfter i s dt) (stAfter i s st) key := by
  cases i with
  | ldVxDT x => rw [hdt ⟨x, rfl⟩]; rfl
  | _ => rfl

/-- R17, R19: an instruction that reads no timer and no key flag does the same whatever they hold; those it writes end as
in the run compared, the others as they were given. -/
theorem exec_withTimersAndKeys {t : State} (hdt : (∃ x, i = .ldVxDT x) → dt = s.DT)
    (hkey : (∃ x, i = .skp x ∨ i = .sknp x) → key = s.key) (h : exec i s = .next t) :
    ∃ dt' st', exec i (s.withTimersAndKeys dt st key) = .next (t.withTimersAndKeys dt' st' key) ∧
      (dt = s.DT → dt' = t.DT) ∧ (st = s.ST → st' = t.ST) := by
  have hown := ownFault_withTimersAndKeys (i := i) (s := s) (dt := dt) (st := st) (key := key)
  rcases hf : ownFault i s with _ | k
  · by_cases hwait : ∃ x, i = .ldVxK x
    · obtain ⟨x, rfl⟩ := hwait
      cases h
      exact ⟨dt, st, rfl, id, id⟩
    · have hk : ∀ x, i ≠ .ldVxK x := fun x hx => hwait ⟨x, hx⟩
      rw [exec_of_no_ownFault hk hf] at h
      rw [exec_of_no_ownFault hk (hown.trans hf), pcTarget_withTimersAndKeys hkey, effect_withTimersAndKeys hdt]
      rcases finish_cases h with ⟨hv, rfl⟩ | ⟨hv, rfl⟩
      · rw [finish_of_valid hv]
        exact ⟨_, _, rfl, fun hd => hd ▸ (effect_DT i s).symm, fun hs => hs ▸ (effect_ST i s).symm⟩
      · rw [finish_of_invalid hv]
        exact ⟨dt, st, rfl, id, id⟩
  · rw [exec_of_ownFault hf] at h
    rw [exec_of_ownFault (hown.trans hf)]
    cases h
    exact ⟨dt, st, rfl, id, id⟩

end

/-- With its own DT and its own keys, only ST is other. -/
theorem unchangedBut_st (t : State) (st : Byte) {key : Vector Bool 16} (hkey : t.key = key) :
    UnchangedBut [.st] t (t.withTimersAndKeys t.DT st key) := by
  subst hkey
  intro p hp
  cases p with
  | st => exact absurd (List.mem_singleton.mpr rfl) hp
  | _ => rfl

/-- With its own ST and its own keys, only DT is other. -/
theorem unchangedBut_dt (t : State) (dt : Byte) {key : Vector Bool 16} (hkey : t.key = key) :
    UnchangedBut [.dt] t (t.withTimersAndKeys dt t.ST key) := by
  subst hkey
  intro p hp
  cases p with
  | dt => exact absurd (List.mem_singleton.mpr rfl) hp
  | _ => rfl

/-- Settles O55: each of the three changed states is the given one with other timers or keys, of which the instruction reads
none. -/
theorem timersAndKeysAreReadOnlyByTheirInstructions : Obligations.TimersAndKeysAreReadOnlyByTheirInstructions := by
  intro i s t h
  have hkey := exec_key h
  refine ⟨fun b => ?_, fun b hdt => ?_, fun index p hskip => ?_⟩
  · obtain ⟨dt, st, hexec, hd, -⟩ :=
      exec_withTimersAndKeys (dt := s.DT) (st := b) (key := s.key) (fun _ => rfl) (fun _ => rfl) h
    rw [hd rfl] at hexec
    exact ⟨_, hexec, unchangedBut_st t st hkey⟩
  · obtain ⟨dt, st, hexec, -, hs⟩ :=
      exec_withTimersAndKeys (dt := b) (st := s.ST) (key := s.key) (fun ⟨x, hx⟩ => absurd hx (hdt x)) (fun _ => rfl) h
    rw [hs rfl] at hexec
    exact ⟨_, hexec, unchangedBut_dt t dt hkey⟩
  · obtain ⟨dt, st, hexec, hd, hs⟩ :=
      exec_withTimersAndKeys (dt := s.DT) (st := s.ST) (key := (setKeyEvent index p s).key) (fun _ => rfl)
        (fun ⟨x, hx⟩ => absurd hx (not_or.mpr (hskip x))) h
    rw [hd rfl, hs rfl] at hexec
    refine ⟨_, (congrArg (exec i) (setKeyEvent_eq index p s)).trans hexec, ?_⟩
    rw [setKeyEvent_eq index p t, setKeyEvent_key_congr hkey]
    rfl

end Sys2Proof.Machine
end

section
/-! PROOFS. `READ`, and what `RESET` constructs (spec/10_state.md R25, spec/43_display.md R131,
spec/70_reset_and_hazards.md R180). -/

namespace Sys2Proof.Machine

/-- Settles O16: `READ` answers the state as it is, its event taken off the schedule. -/
theorem readWritesNothing : Obligations.ReadWritesNothing := by
  intro s he
  refine ⟨takeEvent s, ?_, fun p _ => same_part_refl _ p⟩
  unfold step
  rw [he]
  rfl

/-! ### The reset state, part by part -/

@[simp] theorem reset_reg (r : RegIdx) : State.reset.reg r = 0x00#8 := by simp [State.reg, State.reset]

@[simp] theorem reset_stack (k : Fin 16) : State.reset.stack[k] = 0x0000#16 := by simp [State.reset]

@[simp] theorem reset_key (k : KeyIdx) : State.reset.key[k] = false := by simp [State.reset]

@[simp] theorem reset_pixel (r : Row) (c : Col) : pixel State.reset.fb r c = false := pixel_clearFb r c

/-- Settles O19: the registers and keys are constant vectors, and the bank reads as its background. -/
theorem resetStateHoldsTheListedValues : Obligations.ResetStateHoldsTheListedValues :=
  ⟨reset_reg, rfl, rfl, rfl, rfl, rfl, rfl, rfl, reset_key, by decide, by decide, by decide, by decide, by decide⟩

/-! ### The bank a `RESET` builds -/

/-- An unlisted address of the font region reads as `FONT_TABLE` (R34). -/
theorem background_font {k : Nat} (hk : k < Config.fontSize) :
    Memory.background (Config.fontBase + k) = Config.fontTable.getD k Config.memFill := by
  have hin : 0x050 ≤ Config.fontBase + k ∧ Config.fontBase + k ≤ 0x09F := by
    unfold Config.fontSize at hk; unfold Config.fontBase; omega
  rw [Memory.background_eq, Memory.resetContents_font _ _ hin]
  congr 1
  exact Nat.add_sub_cancel_left _ _

/-- An unlisted address outside the font region reads as `MEM_FILL` (R35). -/
theorem background_outside {a : Nat} (h : ¬ (0x050 ≤ a ∧ a ≤ 0x09F)) : Memory.background a = Config.memFill := by
  rw [Memory.background_eq, Memory.resetContents_outside _ _ h]

/-- An accepted ROM fits between 0x200 and the end of the bank (R182). -/
theorem progBase_add_le_memSize {rom : List Byte} (hlen : rom.length ≤ Config.romMax) :
    Config.progBase + rom.length ≤ Config.memSize := by
  unfold Config.romMax at hlen; unfold Config.progBase Config.memSize; omega

/-- The bank of an accepted ROM is canonical. -/
theorem romImage_wf {rom : List Byte} (hlen : rom.length ≤ Config.romMax) : (romImage rom).wf = true :=
  Memory.writeBytes_wf Memory.reset_wf (progBase_add_le_memSize hlen)

/-- The ROM from 0x200 on, the background everywhere else (R33, R34, R35). -/
theorem read_romImage {rom : List Byte} (hlen : rom.length ≤ Config.romMax) (a : Nat) :
    (romImage rom).read a =
      if Config.progBase ≤ a ∧ a < Config.progBase + rom.length then rom.getD (a - Config.progBase) 0
      else Memory.background a :=
  Memory.read_writeBytes Memory.reset_wf (progBase_add_le_memSize hlen) a

theorem read_romImage_rom {rom : List Byte} (hlen : rom.length ≤ Config.romMax) {k : Nat} (hk : k < rom.length) :
    (romImage rom).read (Config.progBase + k) = rom.getD k 0 := by
  rw [read_romImage hlen, if_pos (by omega), Nat.add_sub_cancel_left]

/-- Loading a ROM leaves the font as it is: the font lies below 0x200 (R31). -/
theorem romImage_fontIntact {rom : List Byte} (hlen : rom.length ≤ Config.romMax) : FontIntact (romImage rom) := by
  intro k hk
  rw [read_romImage hlen, if_neg, background_font hk]
  unfold Config.fontSize at hk
  unfold Config.progBase Config.fontBase
  omega

/-- What `RESET` with an accepted ROM answers (R180, R182). -/
theorem resetEvent_of_le {rom : List Byte} (hlen : rom.length ≤ Config.romMax) (s : State) :
    resetEvent rom s = .next { State.reset with mem := romImage rom, draws := s.draws, schedule := s.schedule } :=
  if_pos (decide_eq_true hlen)

/-- Settles O17: the reset state with the ROM's bank; the three ranges of memory are those of `read_romImage`. -/
theorem resetConstructsTheMachine : Obligations.ResetConstructsTheMachine := by
  intro s rom he hlen
  have hfont := romImage_fontIntact hlen
  refine ⟨{ State.reset with mem := romImage rom, draws := s.draws, schedule := s.schedule.tail }, ?_,
    fun k hk => read_romImage_rom hlen hk, fun k hk => hfont k hk, fun a _ hnotFont hnotRom => ?_,
    reset_reg, rfl, rfl, rfl, reset_stack, rfl, rfl, reset_pixel, reset_key, rfl, rfl, rfl, rfl, rfl⟩
  · unfold step
    rw [he]
    exact resetEvent_of_le hlen (takeEvent s)
  · exact (read_romImage hlen a).trans ((if_neg hnotRom).trans (background_outside hnotFont))

end Sys2Proof.Machine
end

section
/-! PROOFS. The invariant `Inv`: it holds at reset, and every event keeps it. For a `STEP` the argument is made once for
all instructions, from what `effect` may write and from what the word at pc decodes to. -/

namespace Sys2Proof.Machine

/-- Settles O56: memory is the background, pc the entry point, and the last three clauses have nothing to speak of. -/
theorem invariantHoldsAtReset : Obligations.InvariantHoldsAtReset where
  memWf := Memory.reset_wf
  fontIntact := fun _ hk => background_font hk
  pcRange := by decide
  liveStack := fun k hk => absurd hk (Nat.not_lt_zero k.val)
  waitWord := fun hw => by cases hw
  faultCoherent := fun _ hk => by cases hk

/-! ### The events of the host -/

/-- The timers and the keys are no part of the invariant. -/
theorem withTimersAndKeys_inv {s : State} (hi : Inv s) (dt st : Byte) (key : Vector Bool 16) :
    Inv (s.withTimersAndKeys dt st key) :=
  ⟨hi.memWf, hi.fontIntact, hi.pcRange, hi.liveStack, hi.waitWord, fun k hk => by
    have hcoherent := hi.faultCoherent k hk
    cases k <;> exact hcoherent⟩

theorem tickEvent_inv {s : State} (hi : Inv s) : Inv (tickEvent s) :=
  withTimersAndKeys_inv hi (countDown s.DT) (countDown s.ST) s.key

theorem setKeyEvent_inv {s : State} (hi : Inv s) (index : Nat) (p : Bool) : Inv (setKeyEvent index p s) := by
  rw [setKeyEvent_eq]
  exact withTimersAndKeys_inv hi s.DT s.ST _

/-- `RESET` builds a machine with the invariant from any state (R180). -/
theorem resetEvent_inv {rom : List Byte} {s t : State} (h : resetEvent rom s = .next t) : Inv t := by
  by_cases hlen : rom.length ≤ Config.romMax
  · rw [resetEvent_of_le hlen] at h
    cases h
    exact ⟨romImage_wf hlen, romImage_fontIntact hlen, invariantHoldsAtReset.pcRange, invariantHoldsAtReset.liveStack,
      fun hw => (by cases hw), fun _ hk => (by cases hk)⟩
  · rw [resetEvent, wellFormedRom, decide_eq_false hlen] at h
    cases h

/-! ### The instructions -/

/-- Only the store instructions write memory (R26). -/
theorem effect_mem {i : Instr} (s : State) (hB : ∀ x, i ≠ .ldB x) (hS : ∀ x, i ≠ .storeRegs x) :
    (effect i s).mem = s.mem := by
  cases i with
  | ldB x => exact absurd rfl (hB x)
  | storeRegs x => exact absurd rfl (hS x)
  | _ => rfl

/-- Every instruction keeps memory canonical and the font intact (R32). -/
theorem effect_keeps_mem {i : Instr} {s : State} (hno : ownFault i s = none) (hwf : s.mem.wf = true)
    (hfont : FontIntact s.mem) : (effect i s).mem.wf = true ∧ FontIntact (effect i s).mem := by
  by_cases hB : ∃ x, i = .ldB x
  · obtain ⟨x, rfl⟩ := hB
    exact writeBytes_keeps hwf hfont (Nat.zero_lt_succ _) (writable_of_faultOf_storeBytes hno)
  · by_cases hS : ∃ x, i = .storeRegs x
    · obtain ⟨x, rfl⟩ := hS
      have hlen := s.length_regsUpTo x
      exact writeBytes_keeps hwf hfont (by omega) (writable_of_faultOf_storeBytes hno)
    · rw [effect_mem s (fun x hx => hB ⟨x, hx⟩) (fun x hx => hS ⟨x, hx⟩)]
      exact ⟨hwf, hfont⟩

/-- The live entries of a call stack are return addresses of instructions that were fetched (R76). -/
def LiveStackInRange (s : State) : Prop :=
  ∀ k : Fin 16, k.val < s.SP.val → 0x202 ≤ (s.stack[k]).toNat ∧ (s.stack[k]).toNat ≤ 0x1000

theorem popped_liveStack {s : State} (h : LiveStackInRange s) : LiveStackInRange s.popped :=
  fun k hk => h k (Nat.lt_of_lt_of_le hk (Nat.sub_le _ _))

theorem pushed_liveStack {s : State} {v : Word} (h : LiveStackInRange s) (hroom : s.SP.val ≠ 16)
    (hv : 0x202 ≤ v.toNat ∧ v.toNat ≤ 0x1000) : LiveStackInRange (s.pushed v) := by
  intro k hk
  have hsp : (s.pushed v).SP.val = s.SP.val + 1 := Nat.mod_eq_of_lt (by omega)
  have hentry : (s.pushed v).stack[k] = if s.SP.val = k.val then v else s.stack[k] :=
    Vector.getElem_setIfInBounds (by omega)
  rw [hentry]
  split
  · exact hv
  · exact h k (by omega)

/-- Every instruction fetched inside the bank keeps the live return addresses in range (R74, R76). -/
theorem effect_liveStack {i : Instr} {s : State} (hi : Inv s) (hroom : s.pc.toNat ≤ 0xFFE) (hno : ownFault i s = none) :
    LiveStackInRange (effect i s) := by
  cases i with
  | ret => exact popped_liveStack hi.liveStack
  | call nnn =>
    have hlow := hi.pcRange.1
    refine pushed_liveStack hi.liveStack (ownFault_call_none hno) ?_
    rw [BitVec.toNat_ofNat, Nat.mod_eq_of_lt (by omega)]
    omega
  | _ => exact hi.liveStack

/-- Only `LD Vx, K` writes WAIT (R26). -/
theorem effect_WAIT {i : Instr} (s : State) (hk : ∀ x, i ≠ .ldVxK x) : (effect i s).WAIT = s.WAIT := by
  cases i with
  | ldVxK x => exact absurd rfl (hk x)
  | _ => rfl

theorem effect_FAULT (i : Instr) (s : State) : (effect i s).FAULT = s.FAULT := by cases i <;> rfl

/-- Entering the wait keeps the invariant where pc stands on the `LD Vx, K` that is executed (R139). -/
theorem enterWait_inv {s : State} {x : RegIdx} (hi : Inv s) (hroom : s.pc.toNat ≤ 0xFFE)
    (hdec : decode (wordAt s.mem s.pc.toNat) = .ok (.ldVxK x)) : Inv { s with WAIT := true, WAITX := x } :=
  ⟨hi.memWf, hi.fontIntact, hi.pcRange, hi.liveStack, fun _ => ⟨hroom, hdec⟩, fun k hk => by
    have hcoherent := hi.faultCoherent k hk
    cases k <;> exact hcoherent⟩

/-- Every instruction keeps the invariant when a running core executes it from the word at pc. -/
theorem exec_inv {i : Instr} {s t : State} (hi : Inv s) (hrun : s.Running) (hroom : s.pc.toNat ≤ 0xFFE)
    (hdec : decode (wordAt s.mem s.pc.toNat) = .ok i) (h : exec i s = .next t) : Inv t := by
  obtain ⟨hfault, hwait⟩ := hrun
  by_cases hwaits : ∃ x, i = .ldVxK x
  · obtain ⟨x, rfl⟩ := hwaits
    cases h
    exact enterWait_inv hi hroom hdec
  · have hk : ∀ x, i ≠ .ldVxK x := fun x hx => hwaits ⟨x, hx⟩
    rcases hno : ownFault i s with _ | k
    · rw [exec_of_no_ownFault hk hno] at h
      obtain ⟨hwf, hfont⟩ := effect_keeps_mem hno hi.memWf hi.fontIntact
      exact finish_inv hi h (pcTarget_le i s) hwf hfont (effect_liveStack hi hroom hno)
        ((effect_WAIT s hk).trans hwait) ((effect_FAULT i s).trans hfault)
    · rw [exec_of_ownFault hno] at h
      exact raise_inv hi h (ownFault_coherent hno)

/-! ### The `STEP` -/

/-- The poll keeps the invariant: the wait goes on as it is, or ends like an instruction (R140). -/
theorem pollWait_inv {s t : State} (hi : Inv s) (hfault : s.FAULT = none) (h : pollWait s = .next t) : Inv t := by
  unfold pollWait at h
  split at h
  · cases h
    exact hi
  · have htarget : s.pc.toNat + 2 ≤ 0x1000E := by have := hi.pcRange.2; omega
    exact finish_inv hi h htarget hi.memWf hi.fontIntact hi.liveStack rfl hfault

/-- A `STEP` keeps the invariant, whatever it does of R70. -/
theorem stepEvent_inv {s t : State} (hi : Inv s) (h : stepEvent s = .next t) : Inv t := by
  rcases stepEvent_cases h with ⟨-, rfl⟩ | ⟨hfault, -, hpoll⟩ | ⟨hrun, hroom, i, hdec, hexec⟩ |
    ⟨-, hroom, ⟨e, hillegal⟩, rfl⟩ | ⟨-, hpast, rfl⟩
  · exact hi
  · exact pollWait_inv hi hfault hpoll
  · exact exec_inv hi hrun hroom hdec hexec
  · have hword := hillegal.trans (congrArg Except.error (decode_error_illegal hillegal))
    exact raise_inv hi rfl ⟨rfl, hroom, rfl, hword⟩
  · have htop := hi.pcRange.2
    exact raise_inv hi rfl (coherent_memoryAccessError (by omega))

/-- Settles O57, event by event; the event is taken off the schedule first. -/
theorem everyStepKeepsTheInvariant : Obligations.EveryStepKeepsTheInvariant := by
  intro s t hi h
  have hi' := takeEvent_inv hi
  unfold step at h
  cases he : nextEvent s with
  | step => rw [he] at h; exact stepEvent_inv hi' h
  | tick => rw [he] at h; cases h; exact tickEvent_inv hi'
  | setKey index p => rw [he] at h; cases h; exact setKeyEvent_inv hi' index p
  | read => rw [he] at h; cases h; exact hi'
  | reset rom => rw [he] at h; exact resetEvent_inv h

end Sys2Proof.Machine
end

section
/-! PROOFS. The range check of the new pc, last of all checks (spec/10_state.md R14, spec/60_exceptions.md R159): what a
target outside [0x200, 0xFFF] does to an instruction whose own checks pass. -/

namespace Sys2Proof.Machine

/-- R152, R159: own checks passed and the target outside the program region, an instruction latches the target and has no
effect. -/
theorem exec_latches_invalid_target {i : Instr} {s : State} (hk : ∀ x, i ≠ .ldVxK x) (hno : ownFault i s = none)
    (ht : ¬ ValidTarget (pcTarget i s)) :
    ∃ t, exec i s = .next t ∧ LatchesOnly (.memoryAccessError (pcTarget i s)) s t :=
  ⟨_, (exec_of_no_ownFault hk hno).trans (finish_of_invalid ht _ s), latchesOnly_of_eq _ s⟩

/-- Settles O25: each of the four transfers passes its own check, and its target is the one reported. -/
theorem transfersOutsideTheProgramRegionFault : Obligations.TransfersOutsideTheProgramRegionFault := by
  intro s nnn
  refine ⟨fun hlow => ?_, fun hlow hroom => ?_, fun hout => ?_, fun k hsp hout => ?_⟩
  · exact exec_latches_invalid_target (i := .jp nnn) (by simp) rfl fun hv => Nat.not_lt_of_le hv.1 hlow
  · exact exec_latches_invalid_target (i := .call nnn) (by simp) (if_neg hroom.ne) fun hv => Nat.not_lt_of_le hv.1 hlow
  · exact exec_latches_invalid_target (i := .jpV0 nnn) (by simp) rfl hout
  · have htop : pcTarget .ret s = (s.stack[k]).toNat := by simp [pcTarget, hsp]
    have hlatch := exec_latches_invalid_target (i := .ret) (by simp) (if_neg (by omega)) (htop ▸ hout)
    rwa [htop] at hlatch

/-! ### The sequential instructions -/

/-- An instruction with no check but that of the advance goes on to pc + 2 (R72). -/
theorem onlyAdvances_spec {i : Instr} (h : onlyAdvances i = true) (s : State) :
    (∀ x, i ≠ .ldVxK x) ∧ ownFault i s = none ∧ pcTarget i s = s.pc.toNat + 2 := by
  cases i with
  | ret | jp _ | call _ | seImm _ _ | sneImm _ _ | seReg _ _ | sneReg _ _ | jpV0 _ | drw _ _ _ | skp _ | sknp _ | ldVxK _
  | ldB _ | storeRegs _ | loadRegs _ => cases h
  | _ => exact ⟨fun _ => nofun, rfl, rfl⟩

/-- Loads of accessible bytes from I on do not fault (R38). -/
theorem faultOf_readRange_of_accessible {s : State} {n : Nat} (h : ∀ k, k < n → effectiveAddress s k ≤ 0xFFF) :
    faultOf (readRange s.mem (effectiveAddress s 0) n) = none := by
  have hin : n = 0 ∨ effectiveAddress s 0 + n ≤ 0x1000 := by
    rcases Nat.eq_zero_or_pos n with hzero | hpos
    · exact .inl hzero
    · have hlast := h (n - 1) (by omega)
      unfold effectiveAddress at hlast ⊢
      omega
  rw [readRange_ok s.mem hin]
  rfl

/-- Stores to writable bytes from I on do not fault (R37). -/
theorem faultOf_storeBytes_of_accessible {s : State} {bytes : List Byte}
    (h : ∀ k, k < bytes.length → Writable (effectiveAddress s k)) :
    faultOf (storeBytes s.mem (effectiveAddress s 0) bytes) = none := by
  have hw : ∀ k, k < bytes.length → Writable (effectiveAddress s 0 + k) := h
  rw [storeBytes_ok s.mem hw]
  rfl

/-- Settles O52: an instruction that goes on sequentially and may access its data has pc + 2 as its target, with only the
range check left to fail. -/
theorem sequentialAdvancePastTheEndFaults : Obligations.SequentialAdvancePastTheEndFaults := by
  intro s i hout hdata hseq
  suffices hspec : (∀ x, i ≠ .ldVxK x) ∧ ownFault i s = none ∧ pcTarget i s = s.pc.toNat + 2 by
    obtain ⟨hk, hno, htarget⟩ := hspec
    have hlatch := exec_latches_invalid_target hk hno (htarget ▸ hout)
    rwa [htarget] at hlatch
  rcases hseq with honly | ⟨x, y, n, rfl⟩ | ⟨x, rfl | rfl | rfl⟩
  · exact onlyAdvances_spec honly s
  · exact ⟨by simp, faultOf_readRange_of_accessible hdata, rfl⟩
  · exact ⟨by simp, faultOf_storeBytes_of_accessible hdata, rfl⟩
  · have hle : ∀ k, k < (s.regsUpTo x).length → Writable (effectiveAddress s k) := fun k hk =>
      hdata k (by rw [State.length_regsUpTo] at hk; omega)
    exact ⟨by simp, faultOf_storeBytes_of_accessible hle, rfl⟩
  · exact ⟨by simp, faultOf_readRange_of_accessible fun k hk => hdata k (Nat.le_of_lt_succ hk), rfl⟩

end Sys2Proof.Machine
end

section
/-! PROOFS. `MemRead` (spec/20_memory.md R36, R39), and that an instruction whose two bytes stand in memory where the next
fetch is made is the one the next `STEP` runs (R46). -/

namespace Sys2Proof.Machine

/-! ### Reading (R36) -/

theorem memRead2_of_gt {m : Memory} {a : Nat} (h : 0xFFF < a) : memRead2 m a = .error (.memoryAccessError a) := if_pos h

/-- At the last byte of the bank the second address is the one that fails. -/
theorem memRead2_last (m : Memory) : memRead2 m 0xFFF = .error (.memoryAccessError 0x1000) := rfl

theorem memRead2_of_le {m : Memory} {a : Nat} (h : a + 1 ≤ 0xFFF) : memRead2 m a = .ok (wordAt m a) := by
  rw [memRead2, if_neg (by omega), if_neg (by omega)]
  rfl

/-- Big-endian: the first byte is the high one (R5, R39). -/
theorem bytesToWord_toNat (hi lo : Byte) : (bytesToWord hi lo).toNat = hi.toNat * 256 + lo.toNat := by
  rw [BitVec.toNat_append, ← Nat.shiftLeft_add_eq_or_of_lt lo.isLt, Nat.shiftLeft_eq]

/-- R36: `MemRead` does not look beyond the byte it is asked for. -/
theorem memRead_congr {m m' : Memory} {a : Nat} (h : m.read a = m'.read a) : memRead m a = memRead m' a := by
  rw [memRead, memRead, h]

/-- Settles O6, from the three outcomes of a read by where its address lies, and from read-after-write in a canonical
memory. -/
theorem memReadChecksBoundsAndIsBigEndian : Obligations.MemReadChecksBoundsAndIsBigEndian := by
  intro m a
  refine ⟨fun hout => ⟨memRead_of_gt hout, memRead2_of_gt hout⟩, memRead_of_le, ?_, fun hin => ?_, fun v hwf hin => ?_⟩
  · rintro rfl
    exact memRead2_last m
  · exact ⟨wordAt m a, memRead2_of_le hin, bytesToWord_toNat _ _⟩
  · have hread := Memory.read_write hwf a
    constructor
    · rw [memRead_of_le hin, hread, if_pos rfl]
    · intro b hne
      exact memRead_congr ((hread b v).trans (if_neg hne))

/-! ### A placed instruction (log entry 7) -/

/-- The two bytes of a word make the word (R39, R51). -/
theorem bytesToWord_extract (op : Word) : bytesToWord (op.extractLsb' 8 8) (op.extractLsb' 0 8) = op := by
  have hop := op.isLt
  apply BitVec.eq_of_toNat_eq
  rw [bytesToWord_toNat, BitVec.extractLsb'_toNat, BitVec.extractLsb'_toNat, Nat.shiftRight_eq_div_pow]
  omega

/-- A word written as its bytes inside the bank is the word read there. -/
theorem wordAt_writeBytes_wordBytes {m : Memory} (hwf : m.wf = true) {a : Nat} (ha : a ≤ 0xFFE) (op : Word) :
    wordAt (m.writeBytes a (wordBytes op)) a = op := by
  have hlen : (wordBytes op).length = 2 := rfl
  have hread := Memory.read_writeBytes hwf (a := a) (bytes := wordBytes op) (by unfold Config.memSize; omega)
  rw [wordAt, hread, hread, if_pos (by omega), if_pos (by omega), Nat.sub_self, Nat.add_sub_cancel_left]
  exact bytesToWord_extract op

/-- A word placed for the next fetch has room for both its bytes. -/
theorem fetchPlace_le (s : State) : fetchPlace s ≤ 0xFFE := by
  unfold fetchPlace Config.progBase
  split <;> omega

theorem placeWord_pc_toNat (s : State) (op : Word) : (placeWord s op).pc.toNat = fetchPlace s := by
  have hle := fetchPlace_le s
  exact Nat.mod_eq_of_lt (by omega)

/-- The word a fetch finds after `placeWord` is the one placed. -/
theorem wordAt_placeWord {s : State} (hwf : s.mem.wf = true) (op : Word) :
    wordAt (placeWord s op).mem (placeWord s op).pc.toNat = op := by
  rw [placeWord_pc_toNat]
  exact wordAt_writeBytes_wordBytes hwf (fetchPlace_le s) op

/-- A word of 16 bits is given whole. -/
theorem tableWord_16 {w : Nat} (hw : w < 65536) : tableWord 16 w = BitVec.ofNat 16 w := by
  exact congrArg (BitVec.ofNat 16) (Nat.mod_eq_of_lt hw)

/-- Settles O59: placing leaves a running core whose next event is a `STEP` and whose word at pc is the one placed; with
the schedule empty there is no event to take off it. -/
theorem placedInstructionRunsNext : Obligations.PlacedInstructionRunsNext := by
  intro s w i hwf hw hdec
  rw [State.withFetchWord, tableWord_16 hw]
  set placed := placeWord s (BitVec.ofNat 16 w)
  have hroom : placed.pc.toNat ≤ 0xFFE := (placeWord_pc_toNat s _).trans_le (fetchPlace_le s)
  have hword : wordAt placed.mem placed.pc.toNat = BitVec.ofNat 16 w := wordAt_placeWord hwf _
  have htaken : takeEvent placed = placed := rfl
  have hstep := stepRunsTheDecodedInstruction placed i rfl ⟨rfl, rfl⟩ hroom (hword ▸ hdec)
  rwa [htaken] at hstep

end Sys2Proof.Machine
end

section
/-! PROOFS. Stores by an instruction (spec/42_index_memory.md R114, R116): the fault at the lowest byte that may not be
stored to (R37, R152), and what `LD [I], Vx` stores, to be fetched at once (spec/20_memory.md R46). -/

namespace Sys2Proof.Machine

/-! ### Stores that fault -/

/-- A store from I on reports the lowest byte of its range that is not writable (R37, R154). -/
theorem faultOf_storeBytes_of_lowest {s : State} {bytes : List Byte} {k : Nat} (hk : k < bytes.length)
    (hnw : ¬ Writable (effectiveAddress s k)) (hbelow : ∀ j, j < k → Writable (effectiveAddress s j)) :
    faultOf (storeBytes s.mem (effectiveAddress s 0) bytes) = some (.memoryAccessError (effectiveAddress s k)) := by
  rcases storeBytes_cases s.mem (effectiveAddress s 0) bytes with ⟨hall, -⟩ | ⟨j, -, hnwj, hbelowj, herr⟩
  · exact absurd (hall k hk) hnw
  · have hjk : j = k := by
      rcases Nat.lt_trichotomy j k with hlt | heq | hgt
      · exact absurd (hbelow j hlt) hnwj
      · exact heq
      · exact absurd (hbelowj k hgt) hnw
    rw [herr, hjk]
    rfl

/-- An instruction whose own check fails latches that fault and changes nothing else (R151, R152). -/
theorem exec_latches_ownFault {i : Instr} {s : State} {k : FaultRecord} (h : ownFault i s = some k) :
    ∃ t, exec i s = .next t ∧ LatchesOnly k s t :=
  ⟨_, exec_of_ownFault h, latchesOnly_of_eq k s⟩

/-- Settles O40: the lowest unwritable byte is what the store's own check answers, and that check comes before the one of
the new pc. -/
theorem storesFaultAtTheLowestAddressAndStoreNothing : Obligations.StoresFaultAtTheLowestAddressAndStoreNothing := by
  intro s x k hnw hbelow
  constructor
  · intro hk
    exact exec_latches_ownFault (i := .ldB x) (faultOf_storeBytes_of_lowest hk hnw hbelow)
  · intro hk
    have hlen : k < (s.regsUpTo x).length := by rw [State.length_regsUpTo]; omega
    exact exec_latches_ownFault (i := .storeRegs x) (faultOf_storeBytes_of_lowest hlen hnw hbelow)

/-! ### `LD [I], Vx` where it does not fault -/

/-- `LD [I], Vx` to writable bytes with room to advance: its stores, and pc two further (R116). -/
theorem exec_storeRegs {s : State} {x : RegIdx} (hdata : dataAccessible s (.storeRegs x)) (hadv : s.CanAdvance 2) :
    exec (.storeRegs x) s =
      .next { effect (.storeRegs x) s with pc := BitVec.ofNat 16 (s.pc.toNat + 2) } := by
  have hw : ∀ k, k < (s.regsUpTo x).length → Writable (effectiveAddress s k) := fun k hk =>
    hdata k (by rw [State.length_regsUpTo] at hk; omega)
  have hno : ownFault (.storeRegs x) s = none := faultOf_storeBytes_of_accessible hw
  rw [exec_of_no_ownFault (by simp) hno]
  exact finish_of_valid hadv _ s

/-- R116: byte I + r reads as Vr after `LD [I], Vx`. -/
theorem read_effect_storeRegs {s : State} {x r : RegIdx} (hwf : s.mem.wf = true)
    (hdata : dataAccessible s (.storeRegs x)) (hr : r ≤ x) :
    (effect (.storeRegs x) s).mem.read (effectiveAddress s r.val) = s.reg r := by
  have hlen := s.length_regsUpTo x
  have hfit : effectiveAddress s 0 + (s.regsUpTo x).length ≤ Config.memSize :=
    le_memSize_of_writable (by omega) fun k hk => hdata k (by omega)
  have hbyte : (s.regsUpTo x)[r.val]? = some (s.reg r) := (s.getElem?_regsUpTo x r).trans (if_pos hr)
  have hoffset : effectiveAddress s r.val = effectiveAddress s 0 + r.val := rfl
  have hle : r.val ≤ x.val := hr
  show (s.mem.writeBytes (effectiveAddress s 0) (s.regsUpTo x)).read _ = _
  rw [Memory.read_writeBytes hwf hfit, hoffset, if_pos (by omega), Nat.add_sub_cancel_left, List.getD_eq_getElem?_getD,
    hbyte, Option.getD_some]

/-- Settles O43: the state `LD [I], Vx` answers still runs with a `STEP` next, and the word at its pc is made of the two
bytes just stored there. -/
theorem storedInstructionRunsNext : Obligations.StoredInstructionRunsNext := by
  intro s x k i hk16 hwf hdata hadv hnext hrun hkx haddr hdec
  refine ⟨_, exec_storeRegs hdata hadv, ?_⟩
  set t : State := { effect (.storeRegs x) s with pc := BitVec.ofNat 16 (s.pc.toNat + 2) }
  have hpc : t.pc.toNat = effectiveAddress s k.val := (toNat_pc_of_canAdvance hadv).trans haddr.symm
  have hroom : t.pc.toNat ≤ 0xFFE := by
    have hlast : effectiveAddress s k.val + 1 ≤ 0xFFF := (hdata (k.val + 1) hkx).1
    omega
  have hhigh : t.mem.read (effectiveAddress s k.val) = s.reg k :=
    read_effect_storeRegs hwf hdata (Fin.le_def.mpr (by omega))
  have hlow : t.mem.read (effectiveAddress s k.val + 1) = s.reg ⟨k.val + 1, hk16⟩ :=
    read_effect_storeRegs (r := ⟨k.val + 1, hk16⟩) hwf hdata hkx
  have hword : wordAt t.mem t.pc.toNat = bytesToWord (s.reg k) (s.reg ⟨k.val + 1, hk16⟩) := by
    rw [hpc, wordAt, hhigh, hlow]
  exact stepRunsTheDecodedInstruction t i hnext hrun hroom (hword ▸ hdec)

end Sys2Proof.Machine
end

section
/-! PROOFS. The fields of an encoded word and the words built from fields, format by format (spec/30_encoding.md R52,
R53). -/

namespace Sys2Proof

/-- The test of families 5 and 9 on the last nibble. -/
theorem fieldN_eq_zero_iff (w : Word) : fieldN w = 0x0#4 ↔ w.toNat % 16 = 0 := by
  rw [← BitVec.toNat_inj, fieldN_toNat, BitVec.toNat_ofNat, Nat.zero_mod]

/-! ### The fields of an encoded word are the operands -/

theorem fieldNNN_encodeNNN {bits : Word} (nnn : BitVec 12) (h : bits.toNat ≤ 0xF000 ∧ bits.toNat % 4096 = 0) :
    fieldNNN (encodeNNN bits nnn) = nnn := by
  apply BitVec.eq_of_toNat_eq
  rw [fieldNNN_toNat, encodeNNN_toNat bits nnn h.1]; omega

theorem fieldX_encodeXNN {bits : Word} (x : RegIdx) (nn : Byte) (h : bits.toNat ≤ 0xF000 ∧ bits.toNat % 4096 = 0) :
    fieldX (encodeXNN bits x nn) = x := by
  apply Fin.ext
  rw [fieldX_val, encodeXNN_toNat bits x nn h.1]; omega

theorem fieldNN_encodeXNN {bits : Word} (x : RegIdx) (nn : Byte) (h : bits.toNat ≤ 0xF000 ∧ bits.toNat % 4096 = 0) :
    fieldNN (encodeXNN bits x nn) = nn := by
  apply BitVec.eq_of_toNat_eq
  rw [fieldNN_toNat, encodeXNN_toNat bits x nn h.1]; omega

theorem fieldX_encodeXY {bits : Word} (x y : RegIdx) (h : bits.toNat ≤ 0xF00F ∧ bits.toNat % 4096 < 16) :
    fieldX (encodeXY bits x y) = x := by
  apply Fin.ext
  rw [fieldX_val, encodeXY_toNat bits x y h.1]; omega

theorem fieldY_encodeXY {bits : Word} (x y : RegIdx) (h : bits.toNat ≤ 0xF00F ∧ bits.toNat % 4096 < 16) :
    fieldY (encodeXY bits x y) = y := by
  apply Fin.ext
  rw [fieldY_val, encodeXY_toNat bits x y h.1]; omega

theorem fieldX_encodeXYN {bits : Word} (x y : RegIdx) (n : BitVec 4)
    (h : bits.toNat ≤ 0xF000 ∧ bits.toNat % 4096 = 0) : fieldX (encodeXYN bits x y n) = x := by
  apply Fin.ext
  rw [fieldX_val, encodeXYN_toNat bits x y n h.1]; omega

theorem fieldY_encodeXYN {bits : Word} (x y : RegIdx) (n : BitVec 4)
    (h : bits.toNat ≤ 0xF000 ∧ bits.toNat % 4096 = 0) : fieldY (encodeXYN bits x y n) = y := by
  apply Fin.ext
  rw [fieldY_val, encodeXYN_toNat bits x y n h.1]; omega

theorem fieldN_encodeXYN {bits : Word} (x y : RegIdx) (n : BitVec 4)
    (h : bits.toNat ≤ 0xF000 ∧ bits.toNat % 4096 = 0) : fieldN (encodeXYN bits x y n) = n := by
  apply BitVec.eq_of_toNat_eq
  rw [fieldN_toNat, encodeXYN_toNat bits x y n h.1]; omega

theorem fieldX_encodeXF {bits : Word} (x : RegIdx) (h : bits.toNat ≤ 0xF0FF ∧ bits.toNat % 4096 < 256) :
    fieldX (encodeXF bits x) = x := by
  apply Fin.ext
  rw [fieldX_val, encodeXF_toNat bits x h.1]; omega

/-! ### A covered word is built from its own fields -/

theorem encodeNNN_fields {bits w : Word} (h : OpcodeRow.covers ⟨bits, 0xF000#16⟩ w = true) :
    encodeNNN bits (fieldNNN w) = w := by
  rw [covers_F000] at h
  apply BitVec.eq_of_toNat_eq
  rw [encodeNNN_toNat bits _ (by omega), fieldNNN_toNat]; omega

theorem encodeXNN_fields {bits w : Word} (h : OpcodeRow.covers ⟨bits, 0xF000#16⟩ w = true) :
    encodeXNN bits (fieldX w) (fieldNN w) = w := by
  rw [covers_F000] at h
  apply BitVec.eq_of_toNat_eq
  rw [encodeXNN_toNat bits _ _ (by omega), fieldX_val, fieldNN_toNat]; omega

theorem encodeXYN_fields {bits w : Word} (h : OpcodeRow.covers ⟨bits, 0xF000#16⟩ w = true) :
    encodeXYN bits (fieldX w) (fieldY w) (fieldN w) = w := by
  rw [covers_F000] at h
  apply BitVec.eq_of_toNat_eq
  rw [encodeXYN_toNat bits _ _ _ (by omega), fieldX_val, fieldY_val, fieldN_toNat]; omega

theorem encodeXY_fields {bits w : Word} (h : OpcodeRow.covers ⟨bits, 0xF00F#16⟩ w = true) :
    encodeXY bits (fieldX w) (fieldY w) = w := by
  rw [covers_F00F] at h
  apply BitVec.eq_of_toNat_eq
  rw [encodeXY_toNat bits _ _ (by omega), fieldX_val, fieldY_val]; omega

theorem encodeXF_fields {bits w : Word} (h : OpcodeRow.covers ⟨bits, 0xF0FF#16⟩ w = true) :
    encodeXF bits (fieldX w) = w := by
  rw [covers_F0FF] at h
  apply BitVec.eq_of_toNat_eq
  rw [encodeXF_toNat bits _ (by omega), fieldX_val]; omega

/-- The mask 0xFFFF of `CLS` and `RET` leaves no bit free. -/
theorem eq_bits_of_covers_FFFF {bits w : Word} (h : OpcodeRow.covers ⟨bits, 0xFFFF#16⟩ w = true) : w = bits := by
  simp only [OpcodeRow.covers, beq_iff_eq] at h
  rw [← h]; exact (BitVec.and_allOnes (x := w)).symm

/-! ### The opcode of a covered word: its fixed fields are its row's -/

/-- Every mask of R56 fixes the family. -/
theorem fieldFam_row_mask (i : Instr) : fieldFam i.row.mask = 0xF#4 := by
  cases i <;> simp [Instr.row, fieldFam]

theorem family_of_covers {i : Instr} {w : Word} (h : i.row.covers w = true) :
    w.toNat / 4096 = i.row.bits.toNat / 4096 := by
  simp only [OpcodeRow.covers, beq_iff_eq] at h
  have hfam : fieldFam w = fieldFam i.row.bits :=
    calc fieldFam w
      _ = fieldFam w &&& fieldFam i.row.mask := by
        rw [fieldFam_row_mask]; exact (BitVec.and_allOnes (x := fieldFam w)).symm
      _ = fieldFam (w &&& i.row.mask) := BitVec.extractLsb'_and.symm
      _ = fieldFam i.row.bits := by rw [h]
  rw [← fieldFam_toNat, hfam, fieldFam_toNat]

theorem nibble_of_covers_F00F {bits w : Word} (h : OpcodeRow.covers ⟨bits, 0xF00F#16⟩ w = true) :
    w.toNat % 16 = bits.toNat % 16 := by
  rw [covers_F00F] at h; omega

theorem lowByte_of_covers_F0FF {bits w : Word} (h : OpcodeRow.covers ⟨bits, 0xF0FF#16⟩ w = true) :
    w.toNat % 256 = bits.toNat % 256 := by
  rw [covers_F0FF] at h; omega

end Sys2Proof
end

section
/-! PROOFS. Decoder, encoder and opcode table agree (spec/30_encoding.md R52 to R58). The link between the three is the
instruction of a given row whose operands are the fields of a given word: a word that a row covers decodes to it. -/

namespace Sys2Proof

/-- The instruction of the same row with its operands read from the fields of `w` (R52). -/
def Instr.withFieldsOf (w : Word) : Instr → Instr
  | .cls => .cls
  | .ret => .ret
  | .jp _ => .jp (fieldNNN w)
  | .call _ => .call (fieldNNN w)
  | .seImm _ _ => .seImm (fieldX w) (fieldNN w)
  | .sneImm _ _ => .sneImm (fieldX w) (fieldNN w)
  | .seReg _ _ => .seReg (fieldX w) (fieldY w)
  | .ldImm _ _ => .ldImm (fieldX w) (fieldNN w)
  | .addImm _ _ => .addImm (fieldX w) (fieldNN w)
  | .ldReg _ _ => .ldReg (fieldX w) (fieldY w)
  | .orReg _ _ => .orReg (fieldX w) (fieldY w)
  | .andReg _ _ => .andReg (fieldX w) (fieldY w)
  | .xorReg _ _ => .xorReg (fieldX w) (fieldY w)
  | .addReg _ _ => .addReg (fieldX w) (fieldY w)
  | .subReg _ _ => .subReg (fieldX w) (fieldY w)
  | .shrReg _ _ => .shrReg (fieldX w) (fieldY w)
  | .subnReg _ _ => .subnReg (fieldX w) (fieldY w)
  | .shlReg _ _ => .shlReg (fieldX w) (fieldY w)
  | .sneReg _ _ => .sneReg (fieldX w) (fieldY w)
  | .ldI _ => .ldI (fieldNNN w)
  | .jpV0 _ => .jpV0 (fieldNNN w)
  | .rnd _ _ => .rnd (fieldX w) (fieldNN w)
  | .drw _ _ _ => .drw (fieldX w) (fieldY w) (fieldN w)
  | .skp _ => .skp (fieldX w)
  | .sknp _ => .sknp (fieldX w)
  | .ldVxDT _ => .ldVxDT (fieldX w)
  | .ldVxK _ => .ldVxK (fieldX w)
  | .ldDTVx _ => .ldDTVx (fieldX w)
  | .ldSTVx _ => .ldSTVx (fieldX w)
  | .addI _ => .addI (fieldX w)
  | .ldF _ => .ldF (fieldX w)
  | .ldB _ => .ldB (fieldX w)
  | .storeRegs _ => .storeRegs (fieldX w)
  | .loadRegs _ => .loadRegs (fieldX w)

theorem Instr.row_withFieldsOf (i : Instr) (w : Word) : (i.withFieldsOf w).row = i.row := by
  cases i <;> rfl

/-- An instruction's operands are the fields of its word (R53). -/
theorem Instr.withFieldsOf_encode (i : Instr) : i.withFieldsOf (encode i) = i := by
  cases i with
  | cls | ret => rfl
  | jp nnn | call nnn | ldI nnn | jpV0 nnn => simp [withFieldsOf, encode, fieldNNN_encodeNNN]
  | seImm x nn | sneImm x nn | ldImm x nn | addImm x nn | rnd x nn =>
    simp [withFieldsOf, encode, fieldX_encodeXNN, fieldNN_encodeXNN]
  | seReg x y | ldReg x y | orReg x y | andReg x y | xorReg x y | addReg x y | subReg x y | shrReg x y | subnReg x y
  | shlReg x y | sneReg x y => simp [withFieldsOf, encode, fieldX_encodeXY, fieldY_encodeXY]
  | drw x y n => simp [withFieldsOf, encode, fieldX_encodeXYN, fieldY_encodeXYN, fieldN_encodeXYN]
  | skp x | sknp x | ldVxDT x | ldVxK x | ldDTVx x | ldSTVx x | addI x | ldF x | ldB x | storeRegs x | loadRegs x =>
    simp [withFieldsOf, encode, fieldX_encodeXF]

/-- A covered word is the row's `match` bits plus its own fields (R56). -/
theorem encode_withFieldsOf {i : Instr} {w : Word} (h : i.row.covers w = true) : encode (i.withFieldsOf w) = w := by
  cases i with
  | cls | ret => exact (eq_bits_of_covers_FFFF h).symm
  | jp nnn | call nnn | ldI nnn | jpV0 nnn => exact encodeNNN_fields h
  | seImm x nn | sneImm x nn | ldImm x nn | addImm x nn | rnd x nn => exact encodeXNN_fields h
  | seReg x y | ldReg x y | orReg x y | andReg x y | xorReg x y | addReg x y | subReg x y | shrReg x y | subnReg x y
  | shlReg x y | sneReg x y => exact encodeXY_fields h
  | drw x y n => exact encodeXYN_fields h
  | skp x | sknp x | ldVxDT x | ldVxK x | ldDTVx x | ldSTVx x | addI x | ldF x | ldB x | storeRegs x | loadRegs x =>
    exact encodeXF_fields h

/-- The word of an instruction is covered by the instruction's row (R56), for all instructions. -/
theorem row_covers_encode (i : Instr) : i.row.covers (encode i) = true := by
  cases i with
  | cls | ret => rfl
  | jp nnn | call nnn | ldI nnn | jpV0 nnn => exact Laws.RowMatch.formatNNN _ nnn (by decide)
  | seImm x nn | sneImm x nn | ldImm x nn | addImm x nn | rnd x nn =>
    exact Laws.RowMatch.formatXNN _ x nn (by decide)
  | seReg x y | ldReg x y | orReg x y | andReg x y | xorReg x y | addReg x y | subReg x y | shrReg x y | subnReg x y
  | shlReg x y | sneReg x y => exact Laws.RowMatch.formatXY _ x y (by decide)
  | drw x y n => exact Laws.RowMatch.formatXYN _ x y n (by decide)
  | skp x | sknp x | ldVxDT x | ldVxK x | ldDTVx x | ldSTVx x | addI x | ldF x | ldB x | storeRegs x | loadRegs x =>
    exact Laws.RowMatch.formatXF _ x (by decide)

/-! ### A covered word decodes -/

/-- R55: a word that a row covers decodes to that row's instruction, its operands read from the word. The fixed fields
of the row select the arm of the decoder: the family, and then the last nibble or the low byte. -/
theorem decode_of_covers {i : Instr} {w : Word} (h : i.row.covers w = true) : decode w = .ok (i.withFieldsOf w) := by
  have hfam := family_of_covers h
  cases i with
  | cls | ret => rw [eq_bits_of_covers_FFFF h]; rfl
  | jp | call | seImm | sneImm | ldImm | addImm | ldI | jpV0 | rnd | drw =>
    simp [decode, fieldFam_toNat, hfam, Instr.row, Instr.withFieldsOf]
  | seReg | sneReg =>
    have hzero := (fieldN_eq_zero_iff w).2 (nibble_of_covers_F00F h)
    simp [decode, fieldFam_toNat, hfam, hzero, Instr.row, Instr.withFieldsOf]
  | ldReg | orReg | andReg | xorReg | addReg | subReg | shrReg | subnReg | shlReg =>
    have hsub := nibble_of_covers_F00F h
    simp [decode, decodeFamily8, fieldFam_toNat, fieldN_toNat, hfam, hsub, Instr.row, Instr.withFieldsOf]
  | skp | sknp =>
    have hsub := lowByte_of_covers_F0FF h
    simp [decode, decodeFamilyE, fieldFam_toNat, fieldNN_toNat, hfam, hsub, Instr.row, Instr.withFieldsOf]
  | ldVxDT | ldVxK | ldDTVx | ldSTVx | addI | ldF | ldB | storeRegs | loadRegs =>
    have hsub := lowByte_of_covers_F0FF h
    simp [decode, decodeFamilyF, fieldFam_toNat, fieldNN_toNat, hfam, hsub, Instr.row, Instr.withFieldsOf]

/-! ### What the decoder answers is covered -/

theorem covers_of_decodeFamily0 {w : Word} {i : Instr} (h : decodeFamily0 w = .ok i) : i.row.covers w = true := by
  unfold decodeFamily0 at h
  split_ifs at h with hcls hret
  · cases h; rw [hcls]; rfl
  · cases h; rw [hret]; rfl

theorem covers_of_decodeFamily8 {w : Word} {i : Instr} (hfam : w.toNat / 4096 = 0x8) (h : decodeFamily8 w = .ok i) :
    i.row.covers w = true := by
  unfold decodeFamily8 at h
  rw [fieldN_toNat] at h
  split at h <;> cases h <;> exact (covers_F00F _ w).2 (by simp only [BitVec.toNat_ofNat]; omega)

theorem covers_of_decodeFamilyE {w : Word} {i : Instr} (hfam : w.toNat / 4096 = 0xE) (h : decodeFamilyE w = .ok i) :
    i.row.covers w = true := by
  unfold decodeFamilyE at h
  rw [fieldNN_toNat] at h
  split at h <;> cases h <;> exact (covers_F0FF _ w).2 (by simp only [BitVec.toNat_ofNat]; omega)

theorem covers_of_decodeFamilyF {w : Word} {i : Instr} (hfam : w.toNat / 4096 = 0xF) (h : decodeFamilyF w = .ok i) :
    i.row.covers w = true := by
  unfold decodeFamilyF at h
  rw [fieldNN_toNat] at h
  split at h <;> cases h <;> exact (covers_F0FF _ w).2 (by simp only [BitVec.toNat_ofNat]; omega)

/-- R55: the row of the instruction a word decodes to covers the word. -/
theorem covers_of_decode {w : Word} {i : Instr} (h : decode w = .ok i) : i.row.covers w = true := by
  have hlt : w.toNat / 4096 < 16 := by have := w.isLt; omega
  unfold decode at h
  rw [fieldFam_toNat] at h
  match hfam : w.toNat / 4096, hlt, h with
  | 0x0, _, h => exact covers_of_decodeFamily0 h
  | 0x5, _, h | 0x9, _, h =>
    simp only at h
    split_ifs at h with hzero
    have hnibble := (fieldN_eq_zero_iff w).1 hzero
    cases h
    exact (covers_F00F _ w).2 (by simp only [BitVec.toNat_ofNat]; omega)
  | 0x8, _, h => exact covers_of_decodeFamily8 hfam h
  | 0xE, _, h => exact covers_of_decodeFamilyE hfam h
  | 0xF, _, h => exact covers_of_decodeFamilyF hfam h
  | 0x1, _, h | 0x2, _, h | 0x3, _, h | 0x4, _, h | 0x6, _, h | 0x7, _, h | 0xA, _, h | 0xB, _, h | 0xC, _, h
  | 0xD, _, h =>
    cases h
    exact (covers_F000 _ w).2 (by simp only [BitVec.toNat_ofNat]; omega)
  | k + 16, hlt, _ => omega

/-- Every word decodes to an instruction or is illegal by name (R55). -/
theorem decode_ok_or_illegal (w : Word) : (∃ i, decode w = .ok i) ∨ decode w = .error (.illegal w) := by
  cases h : decode w with
  | ok i => exact .inl ⟨i, rfl⟩
  | error e => exact .inr (by rw [Machine.decode_error_illegal h])

/-- The answer for a word is the instruction of any row that covers it, with the word's fields (R55). -/
theorem withFieldsOf_eq_of_decode {i j : Instr} {w : Word} (hcov : j.row.covers w = true) (hdec : decode w = .ok i) :
    j.withFieldsOf w = i :=
  Except.ok.inj ((decode_of_covers hcov).symm.trans hdec)

theorem exists_row_of_mem_opcodeTable {r : OpcodeRow} (h : r ∈ opcodeTable) : ∃ i : Instr, i.row = r := by
  obtain ⟨i, -, hi⟩ := List.mem_map.1 h
  exact ⟨i, hi⟩

/-! ### The agreement of the three -/

/-- Settles O1: the instruction's row covers its word, and the fields of that word are the operands. -/
theorem decodeOfEncodeIsTheInstruction : Obligations.DecodeOfEncodeIsTheInstruction := by
  intro i
  rw [decode_of_covers (row_covers_encode i), i.withFieldsOf_encode]

/-- Settles O2: the row of the answer covers the word, so the answer is that row's instruction with the word's fields,
and that one encodes to the word. -/
theorem encodeOfDecodeIsTheWord : Obligations.EncodeOfDecodeIsTheWord := by
  intro w i hdec
  have hcov := covers_of_decode hdec
  calc encode i
    _ = encode (i.withFieldsOf w) := by rw [withFieldsOf_eq_of_decode hcov hdec]
    _ = w := encode_withFieldsOf hcov

/-- Settles O3: a row that covers the word makes it decode to an instruction of that row, so two covering rows are one,
and an illegal word has none. -/
theorem decodeFollowsTheOpcodeTable : Obligations.DecodeFollowsTheOpcodeTable := by
  intro w
  rcases decode_ok_or_illegal w with ⟨i, hdec⟩ | hillegal
  · refine .inl ⟨i, hdec, row_mem_opcodeTable i, covers_of_decode hdec, fun r hr hcov => ?_⟩
    obtain ⟨j, rfl⟩ := exists_row_of_mem_opcodeTable hr
    rw [← withFieldsOf_eq_of_decode hcov hdec, j.row_withFieldsOf]
  · refine .inr ⟨hillegal, fun r hr => Bool.eq_false_iff.2 fun hcov => ?_⟩
    obtain ⟨j, rfl⟩ := exists_row_of_mem_opcodeTable hr
    cases (decode_of_covers hcov).symm.trans hillegal

/-- Settles O5: each word is the encoding of its instruction. -/
theorem sampleWordsDecodeToTheirInstructions : Obligations.SampleWordsDecodeToTheirInstructions :=
  have h := decodeOfEncodeIsTheInstruction
  ⟨h .ret, h (.call 0xABC#12), h (.ldImm 0xC 0x7F#8), h (.addReg 0xA 0xB), h (.drw 1 2 15#4), h (.addI 9),
    h (.addReg 0 1)⟩

/-! ### The illegal words (R58) -/

theorem decodeFamily0_illegal_iff (w : Word) :
    decodeFamily0 w = .error (.illegal w) ↔ w ≠ 0x00E0#16 ∧ w ≠ 0x00EE#16 := by
  unfold decodeFamily0
  split_ifs <;> simp [*]

theorem decodeFamily8_illegal_iff (w : Word) :
    decodeFamily8 w = .error (.illegal w) ↔ w.toNat % 16 ∈ [0x8, 0x9, 0xA, 0xB, 0xC, 0xD, 0xF] := by
  have hlt : w.toNat % 16 < 16 := Nat.mod_lt _ (by decide)
  unfold decodeFamily8
  rw [fieldN_toNat]
  interval_cases w.toNat % 16 <;> simp

theorem decodeFamilyE_illegal_iff (w : Word) :
    decodeFamilyE w = .error (.illegal w) ↔ w.toNat % 256 ∉ [0x9E, 0xA1] := by
  unfold decodeFamilyE
  rw [fieldNN_toNat]
  split <;> simp_all

theorem decodeFamilyF_illegal_iff (w : Word) :
    decodeFamilyF w = .error (.illegal w) ↔
      w.toNat % 256 ∉ [0x07, 0x0A, 0x15, 0x18, 0x1E, 0x29, 0x33, 0x55, 0x65] := by
  unfold decodeFamilyF
  rw [fieldNN_toNat]
  split <;> simp_all

/-- Settles O4: one case a family, and the families with no illegal word decode every word. -/
theorem illegalWordsAreTheListedFamilies : Obligations.IllegalWordsAreTheListedFamilies := by
  intro w
  have hlt : w.toNat / 4096 < 16 := by have := w.isLt; omega
  rw [← decodeFamily0_illegal_iff, ← decodeFamily8_illegal_iff, ← decodeFamilyE_illegal_iff,
    ← decodeFamilyF_illegal_iff]
  unfold decode
  rw [fieldFam_toNat]
  interval_cases w.toNat / 4096 <;> simp [fieldN_eq_zero_iff]

end Sys2Proof
end

section
/-! PROOFS. Control transfers and skips to targets inside [0x200, 0xFFF] (spec/40_step_and_flow.md R72 to R81), and two
`STEP`s after which pc stands where it stood: the fetch at the last byte of the bank (R71) and the jump to itself
(spec/70_reset_and_hazards.md R189). -/

namespace Sys2Proof.Machine

/-! ### Targets inside the program region (R14), and the jumps (R75, R81) -/

/-- R14, R72: own checks passed and the target inside the program region, an instruction makes all its writes and goes
to its target. -/
theorem exec_of_validTarget {i : Instr} {s : State} (hk : ∀ x, i ≠ .ldVxK x) (hno : ownFault i s = none)
    (hv : ValidTarget (pcTarget i s)) :
    exec i s = .next { effect i s with pc := BitVec.ofNat 16 (pcTarget i s) } :=
  (exec_of_no_ownFault hk hno).trans (finish_of_valid hv _ s)

theorem unchangedBut_pc (s : State) (v : Word) : UnchangedBut [.pc] s { s with pc := v } :=
  fun _ hp => setPc_same_part s v fun he => hp (List.mem_singleton.mpr he)

/-- Every 12-bit target is at most 0xFFF. -/
theorem validTarget_of_nnn {nnn : BitVec 12} (h : 0x200 ≤ nnn.toNat) : ValidTarget nnn.toNat :=
  ⟨h, Nat.le_of_lt_succ nnn.isLt⟩

/-- An instruction with no write but that of pc, at a valid target. -/
theorem exec_writes_pc_alone {i : Instr} {s : State} {d : Nat} (hexec : exec i s = finish d s s) (hv : ValidTarget d) :
    ∃ t, exec i s = .next t ∧ t.pc.toNat = d ∧ UnchangedBut [.pc] s t :=
  ⟨_, hexec.trans (finish_of_valid hv s s), toNat_ofNat_of_valid hv, unchangedBut_pc s _⟩

/-- Settles O24: the exact targets of the two jumps, with no other write around them. -/
theorem jumpsSetPc : Obligations.JumpsSetPc := fun s nnn =>
  ⟨fun hlow => exec_writes_pc_alone (i := .jp nnn) rfl (validTarget_of_nnn hlow),
    fun hv => exec_writes_pc_alone (i := .jpV0 nnn) (s := s) rfl hv⟩

/-! ### Skips (R72, R77 to R80) -/

/-- A conditional skip by `d`, 4 if its condition holds and 2 if not: it writes pc alone, or latches a target outside
the program region alone. -/
theorem skip_writes_pc_or_latches {i : Instr} {s : State} {c : Bool} {d : Nat}
    (hexec : exec i s = finish (skipTarget s c) s s) (hd : d = if c then 4 else 2) :
    (s.CanAdvance d → ∃ t, exec i s = .next t ∧ t.pc.toNat = s.pc.toNat + d ∧ UnchangedBut [.pc] s t) ∧
    (¬ s.CanAdvance d → ∃ t, exec i s = .next t ∧ LatchesOnly (.memoryAccessError (s.pc.toNat + d)) s t) := by
  have hskip := hexec.trans (finish_skipTarget hd s)
  constructor
  · intro hin
    exact ⟨_, hskip.trans (if_pos hin), toNat_pc_of_canAdvance hin, unchangedBut_pc s _⟩
  · intro hout
    exact ⟨_, hskip.trans (if_neg hout), latchesOnly_of_eq _ s⟩

/-- Settles O26: `SE` skips on equality, `SNE` on its negation. -/
theorem skipsCompareWithTheImmediate : Obligations.SkipsCompareWithTheImmediate := by
  intro s x nn d e hd he
  obtain ⟨hse, hseOut⟩ :=
    skip_writes_pc_or_latches (i := .seImm x nn) (c := s.reg x == nn) rfl (by simpa using hd)
  obtain ⟨hsne, hsneOut⟩ :=
    skip_writes_pc_or_latches (i := .sneImm x nn) (c := s.reg x != nn) rfl (by simpa using he)
  exact ⟨hse, hseOut, hsne, hsneOut⟩

/-- Settles O27: as for an immediate, with the second register in its place. -/
theorem skipsCompareTwoRegisters : Obligations.SkipsCompareTwoRegisters := by
  intro s x y d e hd he
  obtain ⟨hse, hseOut⟩ :=
    skip_writes_pc_or_latches (i := .seReg x y) (c := s.reg x == s.reg y) rfl (by simpa using hd)
  obtain ⟨hsne, hsneOut⟩ :=
    skip_writes_pc_or_latches (i := .sneReg x y) (c := s.reg x != s.reg y) rfl (by simpa using he)
  exact ⟨hse, hseOut, hsne, hsneOut⟩

/-! ### `CALL` and `RET` (R16, R74, R76) -/

theorem pushed_SP {s : State} (hroom : s.SP.val ≠ 16) (v : Word) : (s.pushed v).SP.val = s.SP.val + 1 :=
  Nat.mod_eq_of_lt (by omega)

theorem pushed_top {s : State} {k : Fin 16} (hsp : s.SP.val = k.val) (v : Word) : (s.pushed v).stack[k] = v := by
  simp [State.pushed, hsp]

theorem pcTarget_ret {s : State} {k : Fin 16} (hsp : s.SP.val = k.val + 1) : pcTarget .ret s = (s.stack[k]).toNat := by
  simp [pcTarget, hsp]

/-- Settles O20: the entry below SP is the target, and besides pc the pop writes SP alone. -/
theorem retPopsTheCallStackIntoPc : Obligations.RetPopsTheCallStackIntoPc := by
  intro s k hsp hv
  have htarget := pcTarget_ret hsp
  have hexec : exec .ret s = .next { s.popped with pc := BitVec.ofNat 16 (pcTarget .ret s) } :=
    exec_of_validTarget (by simp) (if_neg (by omega)) (htarget ▸ hv)
  refine ⟨_, hexec, ?_, Nat.sub_eq_of_eq_add hsp, fun p hp => ?_⟩
  · show BitVec.ofNat 16 (pcTarget .ret s) = s.stack[k]
    rw [htarget, BitVec.ofNat_toNat, BitVec.setWidth_eq]
  · obtain ⟨hpc, hspPart⟩ : p ≠ .pc ∧ p ≠ .sp := by simpa using hp
    exact same_part_trans (popped_same_part s hspPart) (setPc_same_part _ _ hpc)

/-- Settles O22: with room on the stack the push is made, and besides pc it writes SP and the entry at the old SP. -/
theorem callPushesTheReturnAddress : Obligations.CallPushesTheReturnAddress := by
  intro s nnn k hsp hlow
  have hroom : s.SP.val ≠ 16 := by omega
  have hv := validTarget_of_nnn hlow
  set back : Word := BitVec.ofNat 16 (s.pc.toNat + 2)
  have hexec : exec (.call nnn) s = .next { s.pushed back with pc := BitVec.ofNat 16 nnn.toNat } :=
    exec_of_validTarget (by simp) (if_neg hroom) hv
  refine ⟨_, hexec, ?_, hsp ▸ pushed_SP hroom back, toNat_ofNat_of_valid hv, fun p hp => ?_⟩
  · show ((s.pushed back).stack[k]).toNat = _
    rw [pushed_top hsp, BitVec.toNat_ofNat]
  · obtain ⟨hpc, hspPart, hentry⟩ : p ≠ .pc ∧ p ≠ .sp ∧ p ≠ .stackEntry k := by simpa using hp
    have hentries : ∀ j : Fin 16, j.val = s.SP.val → p ≠ .stackEntry j := fun j hj => by
      rwa [Fin.ext (hj.trans hsp)]
    exact same_part_trans (pushed_same_part s back hspPart hentries) (setPc_same_part _ _ hpc)

/-- Settles O28: `RET` finds the entry `CALL` pushed and takes the depth back, so of what the two write only pc and that
entry differ. -/
theorem callThenRetComesBack : Obligations.CallThenRetComesBack := by
  intro s nnn k hsp hlow hadv
  obtain ⟨t, hcall, hentry, hspt, -, hframe⟩ := callPushesTheReturnAddress s nnn k hsp hlow
  have hreturn : (t.stack[k]).toNat = s.pc.toNat + 2 := hentry.trans (Nat.mod_eq_of_lt (by omega))
  obtain ⟨u, hret, hpcu, hspu, hframe'⟩ := retPopsTheCallStackIntoPc t k hspt (hreturn ▸ hadv)
  have hdepth : u.SP = s.SP := Fin.ext (hspu.trans hsp.symm)
  refine ⟨t, u, hcall, hret, by rw [hpcu, hreturn], hdepth, fun p hp => ?_⟩
  by_cases hspPart : p = .sp
  · subst hspPart
    exact hdepth
  · obtain ⟨hpc, hstack⟩ : p ≠ .pc ∧ p ≠ .stackEntry k := by simpa using hp
    exact same_part_trans (hframe p (by simp [hpc, hspPart, hstack])) (hframe' p (by simp [hpc, hspPart]))

/-! ### The fetch at the last byte, and the jump to itself (R71, R189) -/

/-- R71: without room for a word at pc, the `STEP` of a running core raises the fault of its fetch. -/
theorem stepEvent_eq_raise_of_no_room {s : State} (hrun : s.Running) (hpc : 0xFFE < s.pc.toNat) :
    stepEvent s = raise (.memoryAccessError (max s.pc.toNat 0x1000)) s := by
  rw [stepEvent_of_running hrun, fetch_of_gt hpc]

/-- Settles O9: the word's second byte would be at 0x1000. -/
theorem fetchAtTheLastByteFaults : Obligations.FetchAtTheLastByteFaults := by
  intro s hnext hrun hpc
  have htaken : (takeEvent s).Running := hrun
  have hlast : 0xFFE < (takeEvent s).pc.toNat := Nat.lt_of_lt_of_eq (by decide) hpc.symm
  have hstep : step s = raise (.memoryAccessError (max s.pc.toNat 0x1000)) (takeEvent s) :=
    (step_of_stepIsNext hnext).trans (stepEvent_eq_raise_of_no_room htaken hlast)
  rw [hpc] at hstep
  exact ⟨_, hstep, latchesOnly_of_eq _ _⟩

/-- Writing pc with the value it has changes nothing. -/
theorem finish_to_own_pc {s : State} (hv : ValidTarget s.pc.toNat) : finish s.pc.toNat s s = .next s := by
  rw [finish_of_valid hv, BitVec.ofNat_toNat, BitVec.setWidth_eq]

/-- Settles O58: the `STEP` runs the jump, whose target is the pc it stands on. -/
theorem finishedStateStaysAsItIs : Obligations.FinishedStateStaysAsItIs := by
  intro s hfinished hlow hnext
  obtain ⟨hrun, hpc, nnn, hdec, hself⟩ := hfinished
  have hv : ValidTarget (takeEvent s).pc.toNat := ⟨hlow, Nat.le_succ_of_le hpc⟩
  calc step s
    _ = exec (.jp nnn) (takeEvent s) := stepRunsTheDecodedInstruction s _ hnext hrun hpc hdec
    _ = finish nnn.toNat (takeEvent s) (takeEvent s) := rfl
    _ = finish s.pc.toNat (takeEvent s) (takeEvent s) := by rw [hself]
    _ = .next (takeEvent s) := finish_to_own_pc hv

end Sys2Proof.Machine
end

section
/-! PROOFS. Register load, arithmetic, logic, shift and random (spec/41_alu.md R90 to R104), of two shapes: one register
written, and a result to Vx with a flag to VF after it. A shape says once where pc goes and what is unchanged; each
instruction adds its arithmetic. -/

namespace Sys2Proof.Machine

/-! ### The flag values, as numbers (R96 to R100) -/

theorem carryFlag_toNat (a b : Byte) : (carryFlag a b).toNat = if 255 < a.toNat + b.toNat then 1 else 0 := by
  simp [carryFlag]

theorem notBorrowFlag_toNat (a b : Byte) : (notBorrowFlag a b).toNat = if b.toNat ≤ a.toNat then 1 else 0 := by
  simp [notBorrowFlag]

/-- A bit of a byte, stored in VF as a flag. -/
theorem flagByte_getLsbD_toNat (b : Byte) (k : Nat) : (flagByte (b.getLsbD k)).toNat = b.toNat / 2 ^ k % 2 := by
  rw [← Nat.toNat_testBit, BitVec.testBit_toNat]
  cases b.getLsbD k <;> rfl

theorem shiftedOutRight_toNat (b : Byte) : (shiftedOutRight b).toNat = b.toNat % 2 := by
  rw [shiftedOutRight, flagByte_getLsbD_toNat, pow_zero, Nat.div_one]

theorem shiftedOutLeft_toNat (b : Byte) : (shiftedOutLeft b).toNat = b.toNat / 128 := by
  have hb := b.isLt
  rw [shiftedOutLeft, flagByte_getLsbD_toNat]
  omega

/-! ### The two shapes -/

/-- The write of pc that ends an instruction adds pc to the parts its other writes may change. -/
theorem unchangedBut_pc_cons {parts : List Part} {s e : State} (h : UnchangedBut parts s e) (v : Word) :
    UnchangedBut (.pc :: parts) s { e with pc := v } := by
  intro p hp
  obtain ⟨hpc, hparts⟩ : p ≠ .pc ∧ p ∉ parts := by simpa using hp
  exact same_part_trans (h p hparts) (setPc_same_part e v hpc)

theorem unchangedBut_setReg (s : State) (x : RegIdx) (v : Byte) : UnchangedBut [.reg x] s (s.setReg x v) :=
  fun _ hp => setReg_same_part s v fun he => hp (List.mem_singleton.mpr he)

theorem unchangedBut_setTwoRegs (s : State) (x y : RegIdx) (v w : Byte) :
    UnchangedBut [.reg x, .reg y] s ((s.setReg x v).setReg y w) := by
  intro p hp
  obtain ⟨hx, hy⟩ : p ≠ .reg x ∧ p ≠ .reg y := by simpa using hp
  exact setTwoRegs_same_part s v w hx hy

/-- R11, R72: an instruction that writes one register and advances writes no flag beside it (decision D14). -/
theorem exec_writes_one_reg {i : Instr} {s : State} {x : RegIdx} {v : Byte}
    (hexec : exec i s = advance (s.setReg x v) s) (hadv : s.CanAdvance 2) :
    ∃ t, exec i s = .next t ∧ t.reg x = v ∧ t.pc.toNat = s.pc.toNat + 2 ∧ UnchangedBut [.pc, .reg x] s t :=
  ⟨_, hexec.trans (advance_of_canAdvance hadv _), State.reg_setReg_same s x v, toNat_pc_of_canAdvance hadv,
    unchangedBut_pc_cons (unchangedBut_setReg s x v) _⟩

/-- R102: the flag is written after the result, so it stands in VF for every x, and the result in Vx unless x = 15
(decision D13). -/
theorem exec_writes_result_then_flag {i : Instr} {s : State} {x : RegIdx} {result flag : Byte} {r f : Nat}
    (hexec : exec i s = writeResultThenFlag x result flag s) (hadv : s.CanAdvance 2) (hr : result.toNat = r)
    (hf : flag.toNat = f) :
    ∃ t, exec i s = .next t ∧ (x ≠ 15 → (t.reg x).toNat = r) ∧ (t.reg 15).toNat = f ∧
      t.pc.toNat = s.pc.toNat + 2 ∧ UnchangedBut [.pc, .reg x, .reg 15] s t := by
  set written := (s.setReg x result).setReg 15 flag
  have hflag : written.reg 15 = flag := State.reg_setReg_same _ 15 flag
  have hresult (hx : x ≠ 15) : written.reg x = result :=
    (State.reg_setReg_other _ flag hx).trans (State.reg_setReg_same s x result)
  exact ⟨_, hexec.trans (advance_of_canAdvance hadv written), fun hx => (congrArg BitVec.toNat (hresult hx)).trans hr,
    (congrArg BitVec.toNat hflag).trans hf, toNat_pc_of_canAdvance hadv,
    unchangedBut_pc_cons (unchangedBut_setTwoRegs s x 15 result flag) _⟩

/-! ### One register written (R90 to R95) -/

/-- Settles O29: the two immediates, of which the second is added modulo 256. -/
theorem immediateLoadAndAdd : Obligations.ImmediateLoadAndAdd := by
  intro s x nn hadv
  refine ⟨exec_writes_one_reg rfl hadv, ?_⟩
  obtain ⟨t, hexec, hreg, hpc, hframe⟩ := exec_writes_one_reg (i := .addImm x nn) rfl hadv
  exact ⟨t, hexec, by rw [hreg, BitVec.toNat_add], hpc, hframe⟩

/-- Settles O30: the move, and the three operations bit by bit. -/
theorem registerMoveAndLogic : Obligations.RegisterMoveAndLogic := by
  intro s x y hadv
  refine ⟨exec_writes_one_reg rfl hadv, ?_, ?_, ?_⟩
  · obtain ⟨t, hexec, hreg, hpc, hframe⟩ := exec_writes_one_reg (i := .orReg x y) rfl hadv
    exact ⟨t, hexec, fun b => by rw [hreg, BitVec.getLsbD_or], hpc, hframe⟩
  · obtain ⟨t, hexec, hreg, hpc, hframe⟩ := exec_writes_one_reg (i := .andReg x y) rfl hadv
    exact ⟨t, hexec, fun b => by rw [hreg, BitVec.getLsbD_and], hpc, hframe⟩
  · obtain ⟨t, hexec, hreg, hpc, hframe⟩ := exec_writes_one_reg (i := .xorReg x y) rfl hadv
    exact ⟨t, hexec, fun b => by rw [hreg, BitVec.getLsbD_xor], hpc, hframe⟩

/-! ### A result and a flag (R96 to R103) -/

/-- Settles O31: the sum wraps, and the flag is whether the exact sum is above 255. -/
theorem addRegistersSetsCarry : Obligations.AddRegistersSetsCarry := fun _ _ _ hadv =>
  exec_writes_result_then_flag rfl hadv (BitVec.toNat_add _ _) (carryFlag_toNat _ _)

/-- A difference of bytes, borrowing 256 where it must. -/
theorem toNat_byte_sub (a b : Byte) : (a - b).toNat = (a.toNat + 256 - b.toNat) % 256 := by
  have hb := b.isLt
  rw [BitVec.toNat_sub]
  omega

/-- Settles O32: the two subtractions differ in the order of their operands, for the difference and the flag alike. -/
theorem subtractionsSetNotBorrow : Obligations.SubtractionsSetNotBorrow := fun _ _ _ hadv =>
  ⟨exec_writes_result_then_flag rfl hadv (toNat_byte_sub _ _) (notBorrowFlag_toNat _ _),
    exec_writes_result_then_flag rfl hadv (toNat_byte_sub _ _) (notBorrowFlag_toNat _ _)⟩

theorem toNat_byte_ushiftRight_one (b : Byte) : (b >>> 1).toNat = b.toNat / 2 := by
  rw [BitVec.toNat_ushiftRight, Nat.shiftRight_one]

theorem toNat_byte_shiftLeft_one (b : Byte) : (b <<< 1).toNat = 2 * b.toNat % 256 := by
  rw [BitVec.toNat_shiftLeft, Nat.shiftLeft_eq, pow_one, Nat.mul_comm]

/-- Settles O33: both shifts take the old Vy, the left one modulo 256. -/
theorem shiftsTakeVyAndSetTheShiftedOutBit : Obligations.ShiftsTakeVyAndSetTheShiftedOutBit := fun _ _ _ hadv =>
  ⟨exec_writes_result_then_flag rfl hadv (toNat_byte_ushiftRight_one _) (shiftedOutRight_toNat _),
    exec_writes_result_then_flag rfl hadv (toNat_byte_shiftLeft_one _) (shiftedOutLeft_toNat _)⟩

/-! ### Random (R104) -/

/-- A masked byte has no bit outside its mask. -/
theorem and_and_not_eq_zero (b nn : Byte) : b &&& nn &&& ~~~nn = 0x00#8 := by
  rw [BitVec.and_assoc, BitVec.and_not_self]
  exact BitVec.and_zero

/-- Settles O34: the draw is consumed beside the write of Vx, and nothing is assumed of the byte drawn. -/
theorem randomIsTheDrawnByteMasked : Obligations.RandomIsTheDrawnByteMasked := by
  intro s x nn hadv
  set masked : Byte := randomOperand s &&& nn
  have hreg : (s.setReg x masked).nextDraw.reg x = masked := State.reg_setReg_same s x masked
  have hframe : UnchangedBut [.reg x, .draws] s (s.setReg x masked).nextDraw := by
    intro p hp
    obtain ⟨hx, hdraws⟩ : p ≠ .reg x ∧ p ≠ .draws := by simpa using hp
    exact same_part_trans (setReg_same_part s masked hx) (nextDraw_same_part _ hdraws)
  exact ⟨_, advance_of_canAdvance hadv _, hreg, (congrArg (· &&& ~~~nn) hreg).trans (and_and_not_eq_zero _ nn), rfl,
    toNat_pc_of_canAdvance hadv, unchangedBut_pc_cons hframe _⟩

end Sys2Proof.Machine
end

section
/-! PROOFS. The address register (spec/42_index_memory.md R110, R111, R113): one shape, I written alone, and the glyph
that `LD F` makes I point at (spec/20_memory.md R32, R34). -/

namespace Sys2Proof.Machine

theorem unchangedBut_setI (s : State) (v : Word) : UnchangedBut [.index] s (s.setI v) :=
  fun _ hp => setI_same_part s v fun he => hp (List.mem_singleton.mpr he)

/-- R72: an instruction that writes I and advances writes nothing else, VF included (decision D14). -/
theorem exec_writes_index {i : Instr} {s : State} {v : Word} {n : Nat} (hexec : exec i s = advance (s.setI v) s)
    (hadv : s.CanAdvance 2) (hv : v.toNat = n) :
    ∃ t, exec i s = .next t ∧ t.I.toNat = n ∧ t.pc.toNat = s.pc.toNat + 2 ∧ UnchangedBut [.pc, .index] s t :=
  ⟨_, hexec.trans (advance_of_canAdvance hadv _), hv, toNat_pc_of_canAdvance hadv,
    unchangedBut_pc_cons (unchangedBut_setI s v) _⟩

/-- A byte added to a word, modulo 65536 (decision D15). -/
theorem toNat_word_add_byte (w : Word) (b : Byte) : (w + b.setWidth 16).toNat = (w.toNat + b.toNat) % 65536 := by
  rw [BitVec.toNat_add, BitVec.toNat_setWidth_of_le (by decide)]

/-- Settles O35: the three instructions write I alone; only the sum can wrap. -/
theorem indexRegisterWrites : Obligations.IndexRegisterWrites := fun _ _ _ hadv =>
  ⟨exec_writes_index rfl hadv (BitVec.toNat_setWidth_of_le (by decide)),
    exec_writes_index rfl hadv (toNat_word_add_byte _ _), exec_writes_index rfl hadv (glyphAddress_toNat _)⟩

/-- Settles O36: a digit's glyph lies inside the font region, where memory reads as `FONT_TABLE`. -/
theorem fontAddressPointsAtTheGlyph : Obligations.FontAddressPointsAtTheGlyph := by
  intro s x j hadv hfont hdigit hj
  have hin : 5 * (s.reg x).toNat + j < Config.fontSize := by unfold Config.fontSize; omega
  have haddr : (glyphAddress (s.reg x)).toNat + j = Config.fontBase + (5 * (s.reg x).toNat + j) := by
    rw [glyphAddress_toNat, Nat.add_assoc, Config.fontBase]
  exact ⟨_, advance_of_canAdvance hadv _, (congrArg s.mem.read haddr).trans (hfont _ hin)⟩

end Sys2Proof.Machine
end

section
/-! PROOFS. The data moves between registers and memory (spec/42_index_memory.md R112 to R117) where they do not fault,
the decimal digits of a byte (R114, R115), and the reads that leave the bank (spec/60_exceptions.md R154). -/

namespace Sys2Proof.Machine

/-! ### The decimal digits (R114, R115) -/

/-- The three digits as numbers: each fits a byte. -/
theorem toNat_bcdDigits (v : Byte) :
    (bcdDigits v)[0].toNat = v.toNat / 100 ∧ (bcdDigits v)[1].toNat = v.toNat / 10 % 10 ∧
      (bcdDigits v)[2].toNat = v.toNat % 10 := by
  have hv := v.isLt
  refine ⟨Nat.mod_eq_of_lt ?_, Nat.mod_eq_of_lt ?_, Nat.mod_eq_of_lt ?_⟩ <;> omega

/-- Settles O38: quotients and remainders by 100 and 10, which linear arithmetic finds to be the only such digits. -/
theorem bcdDigitsObeyTheDecimalLaw : Obligations.BcdDigitsObeyTheDecimalLaw := by
  intro v
  have hv := v.isLt
  obtain ⟨hhundreds, htens, hones⟩ := toNat_bcdDigits v
  refine ⟨(bcdDigits v)[0], (bcdDigits v)[1], (bcdDigits v)[2], rfl, ?_⟩
  rw [hhundreds, htens, hones]
  exact ⟨by omega, by omega, by omega, by omega, fun h' t' o' _ _ _ _ => by omega⟩

/-! ### Stores from I on -/

/-- Stored from I on, byte k of the list stands at I + k (R37, R112). -/
theorem read_storeFromI {s : State} {bytes : List Byte} {k : Nat} (hwf : s.mem.wf = true)
    (hw : ∀ j, j < bytes.length → Writable (effectiveAddress s j)) (hk : k < bytes.length) :
    (s.mem.writeBytes (effectiveAddress s 0) bytes).read (effectiveAddress s k) = bytes[k] := by
  have hfit : effectiveAddress s 0 + bytes.length ≤ Config.memSize := le_memSize_of_writable (by omega) hw
  have hoffset : effectiveAddress s k = effectiveAddress s 0 + k := rfl
  rw [Memory.read_writeBytes hwf hfit, hoffset, if_pos (by omega), Nat.add_sub_cancel_left, List.getD_eq_getElem _ _ hk]

/-- Settles O37: the digit stored at I + k is digit k, and the frame is the instruction's row of R26. -/
theorem bcdStoresThreeDigits : Obligations.BcdStoresThreeDigits := by
  intro s x hwf hdata hadv
  have hno : ownFault (.ldB x) s = none := faultOf_storeBytes_of_accessible hdata
  have hdigit {k : Nat} (hk : k < 3) :
      ((effect (.ldB x) s).mem.read (effectiveAddress s k)).toNat = (bcdDigits (s.reg x))[k].toNat :=
    congrArg BitVec.toNat (read_storeFromI (bytes := bcdDigits (s.reg x)) hwf hdata hk)
  obtain ⟨hhundreds, htens, hones⟩ := toNat_bcdDigits (s.reg x)
  exact ⟨_, exec_of_validTarget (by simp) hno hadv, (hdigit (by decide)).trans hhundreds,
    (hdigit (by decide)).trans htens, (hdigit (by decide)).trans hones, toNat_pc_of_canAdvance hadv,
    fun _ hp => completed_same hno hp fun _ _ => hwf⟩

/-- Settles O39: byte I + k reads as Vk after the stores, and the frame is the instruction's row of R26. -/
theorem storeRegistersFromV0ToVx : Obligations.StoreRegistersFromV0ToVx := by
  intro s x hwf hdata hadv
  have hno : ownFault (.storeRegs x) s = none := faultOf_storeBytes_of_accessible fun k hk =>
    hdata k (by rw [State.length_regsUpTo] at hk; omega)
  exact ⟨_, exec_storeRegs hdata hadv, fun _ hk => read_effect_storeRegs hwf hdata hk, toNat_pc_of_canAdvance hadv,
    fun _ hp => completed_same hno hp fun _ _ => hwf⟩

/-! ### Loads from I on -/

/-- R117: Vk is byte I + k after a load of more than k bytes. -/
theorem reg_loadRegs_bytesFromI {s : State} {n : Nat} {k : RegIdx} (hk : k.val < n) :
    (s.loadRegs (bytesFromI s n)).reg k = s.mem.read (effectiveAddress s k.val) := by
  have hbyte : (bytesFromI s n)[k.val]? = some (s.mem.read (effectiveAddress s 0 + k.val)) := by
    simp [bytesFromI, hk]
  rw [State.reg_loadRegs, hbyte]
  rfl

/-- Settles O41: the loaded bytes are those from I on. Its row of R26 lists no byte, so the frame asks nothing of
memory. -/
theorem loadRegistersFromV0ToVx : Obligations.LoadRegistersFromV0ToVx := by
  intro s x hdata hadv
  have hno : ownFault (.loadRegs x) s = none := faultOf_readRange_of_accessible fun k hk =>
    hdata k (Nat.le_of_lt_succ hk)
  refine ⟨_, exec_of_validTarget (by simp) hno hadv, fun k hk => reg_loadRegs_bytesFromI (Nat.lt_succ_of_le hk),
    toNat_pc_of_canAdvance hadv, fun p hp => ?_⟩
  obtain ⟨hpc, hregs⟩ := not_or.mp hp
  refine same_part_trans (loadRegs_same_part s _ fun r hr he => hregs ⟨r, ?_, he⟩) (setPc_same_part _ _ hpc)
  rw [bytesFromI, List.length_map, List.length_range] at hr
  exact Nat.le_of_lt_succ hr

/-! ### Reads that leave the bank -/

/-- A read from I on reports the lowest address of its range above 0xFFF (R154): I itself, or else 0x1000. -/
theorem faultOf_readRange_of_lowest {s : State} {n k : Nat} (hk : k < n) (hout : 0xFFF < effectiveAddress s k)
    (hbelow : ∀ j, j < k → effectiveAddress s j ≤ 0xFFF) :
    faultOf (readRange s.mem (effectiveAddress s 0) n) = some (.memoryAccessError (effectiveAddress s k)) := by
  have hlowest : max (effectiveAddress s 0) 0x1000 = effectiveAddress s k := by
    cases k with
    | zero => exact Nat.max_eq_left hout
    | succ j =>
      have hprev := hbelow j (Nat.lt_succ_self j)
      unfold effectiveAddress at hprev hout ⊢
      omega
  have hleaves : 0x1000 < effectiveAddress s 0 + n := by
    unfold effectiveAddress at hout ⊢
    omega
  rw [readRange_err s.mem (by omega) hleaves, hlowest]
  rfl

/-- Settles O42: the lowest address past the bank is what the read's own check answers, and that check comes before the
one of the new pc. -/
theorem readsPastTheEndFaultAtTheLowestAddress : Obligations.ReadsPastTheEndFaultAtTheLowestAddress := by
  intro s x y n k hout hbelow
  constructor
  · intro hk
    exact exec_latches_ownFault (i := .loadRegs x) (faultOf_readRange_of_lowest (Nat.lt_succ_of_le hk) hout hbelow)
  · intro hk
    exact exec_latches_ownFault (i := .drw x y n) (faultOf_readRange_of_lowest hk hout hbelow)

end Sys2Proof.Machine
end

section
/-! PROOFS. The framebuffer instructions (spec/43_display.md R126 to R130). The listed pixels of `Dxyn` are those the
sprite's 1 bits fall on, each once, and from that follow what one draw and two draws leave. -/

namespace Sys2Proof.Machine

/-! ### `CLS` (R126) -/

/-- Settles O44: the framebuffer is the cleared one, and besides pc nothing else is written. -/
theorem clearTurnsEveryPixelOff : Obligations.ClearTurnsEveryPixelOff := by
  intro s hadv
  refine ⟨_, exec_of_validTarget (i := .cls) (by simp) rfl hadv, pixel_clearFb, toNat_pc_of_canAdvance hadv,
    fun p hp => ?_⟩
  obtain ⟨hpc, hpixel⟩ := not_or.mp hp
  exact same_part_trans (setFb_same_part s clearFb fun r c he => hpixel ⟨r, c, he⟩) (setPc_same_part _ _ hpc)

/-! ### The pixels of a sprite (R127, R128, R129) -/

theorem length_bytesFromI (s : State) (n : Nat) : (bytesFromI s n).length = n := by simp [bytesFromI]

theorem getD_bytesFromI (s : State) {n k : Nat} (hk : k < n) :
    (bytesFromI s n).getD k 0 = s.mem.read (effectiveAddress s k) := by
  simp [bytesFromI, effectiveAddress, hk]

/-- The listed pixels are exactly those some 1 bit of the sprite falls on. -/
theorem mem_drawnCells_iff (s : State) (x y : RegIdx) (n : BitVec 4) (r : Row) (c : Col) :
    (r, c) ∈ drawnCells x y n s ↔ SpriteBitOn s x y n.toNat r c := by
  rw [drawnCells, mem_spriteCells, length_bytesFromI]
  refine exists_congr fun k => exists_congr fun j => and_congr_right fun hk => ?_
  rw [getD_bytesFromI s hk, spriteX, spriteY]

/-- A sprite of at most 15 rows names no pixel twice. -/
theorem nodup_drawnCells (s : State) (x y : RegIdx) (n : BitVec 4) : (drawnCells x y n s).Nodup := by
  refine nodup_spriteCells _ _ ?_
  rw [length_bytesFromI]
  omega

/-- R127: the collision of `Dxyn`, in terms of the sprite's 1 bits. -/
theorem spriteHit_drawnCells_iff (s : State) (x y : RegIdx) (n : BitVec 4) (fb : Framebuffer) :
    spriteHit fb (drawnCells x y n s) = true ↔ ∃ r c, SpriteBitOn s x y n.toNat r c ∧ pixel fb r c = true := by
  simp only [spriteHit_iff, Prod.exists, mem_drawnCells_iff]

/-! ### One draw (R127, R130) -/

/-- Settles O45: the pixels drawn are those of the sprite's 1 bits, each toggled once, and VF is written after them. -/
theorem drawInvertsExactlyTheSpritesPixels : Obligations.DrawInvertsExactlyTheSpritesPixels := by
  intro s x y n hdata hadv
  have hexec := exec_of_validTarget (i := .drw x y n) (s := s) (by simp) (faultOf_readRange_of_accessible hdata) hadv
  have hpixel := pixel_drawCells s.fb (nodup_drawnCells s x y n)
  have hVF : (effect (.drw x y n) s).reg 15 = flagByte (spriteHit s.fb (drawnCells x y n s)) :=
    State.reg_setReg_same _ 15 _
  have hhit := spriteHit_drawnCells_iff s x y n s.fb
  refine ⟨_, hexec, fun r c hon => ?_, fun r c hoff => ?_, fun hcoll => ?_, fun hnone => ?_,
    toNat_pc_of_canAdvance hadv, fun p hp => ?_⟩
  · exact (hpixel r c).trans (if_pos ((mem_drawnCells_iff s x y n r c).mpr hon))
  · exact (hpixel r c).trans (if_neg fun hmem => hoff ((mem_drawnCells_iff s x y n r c).mp hmem))
  · exact hVF.trans (congrArg flagByte (hhit.mpr hcoll))
  · exact hVF.trans (congrArg flagByte (Bool.eq_false_of_not_eq_true fun h => hnone (hhit.mp h)))
  · obtain ⟨hpc, hother⟩ := not_or.mp hp
    obtain ⟨hreg, hpart⟩ := not_or.mp hother
    have hdrawn := setFb_same_part s (drawCells s.fb (drawnCells x y n s)) fun r c he => hpart ⟨r, c, he⟩
    exact same_part_trans (same_part_trans hdrawn (setReg_same_part _ _ hreg)) (setPc_same_part _ _ hpc)

/-! ### Two draws (R130) -/

/-- The sprite and its place depend on I, the two position registers and memory alone. -/
theorem spriteBitOn_congr {s t : State} {x y : RegIdx} (hI : t.I = s.I) (hx : t.reg x = s.reg x)
    (hy : t.reg y = s.reg y) (hmem : ∀ a, t.mem.read a = s.mem.read a) (n : Nat) (r : Row) (c : Col) :
    SpriteBitOn t x y n r c ↔ SpriteBitOn s x y n r c := by
  simp only [SpriteBitOn, effectiveAddress, hI, hx, hy, hmem]

/-- Settles O46: with x and y not 15 the second draw falls on the pixels of the first. So it inverts them back, and
where the first found them all off it finds them all on. -/
theorem drawingTwiceRestoresTheFramebuffer : Obligations.DrawingTwiceRestoresTheFramebuffer := by
  intro s x y n hx hy hdata hadv hadv'
  obtain ⟨t, hexec, hon, hoff, hcoll, -, hpc, hframe⟩ := drawInvertsExactlyTheSpritesPixels s x y n hdata hadv
  have hI : t.I = s.I := hframe .index (by simp)
  have hsprite := spriteBitOn_congr hI (hframe (.reg x) (by simpa using hx)) (hframe (.reg y) (by simpa using hy))
    (fun a => hframe (.byte a) (by simp)) n.toNat
  have hdata' : dataAccessible t (.drw x y n) := fun k hk => by
    rw [effectiveAddress, hI]
    exact hdata k hk
  obtain ⟨u, hexec', hon', hoff', hcoll', -, -, -⟩ :=
    drawInvertsExactlyTheSpritesPixels t x y n hdata' (by rw [State.CanAdvance, hpc]; exact hadv')
  refine ⟨t, u, hexec, hexec', fun r c => ?_, fun hVF ⟨r, c, hbit⟩ =>
    hcoll' ⟨r, c, (hsprite r c).mpr hbit, ?_⟩⟩
  · by_cases hbit : SpriteBitOn s x y n.toNat r c
    · rw [hon' r c ((hsprite r c).mpr hbit), hon r c hbit, Bool.not_not]
    · rw [hoff' r c (mt (hsprite r c).mp hbit), hoff r c hbit]
  · have hwasOff : pixel s.fb r c = false := Bool.eq_false_of_not_eq_true fun hwasOn =>
      absurd ((hcoll ⟨r, c, hbit, hwasOn⟩).symm.trans hVF) (by decide)
    rw [hon r c hbit, hwasOff, Bool.not_false]

end Sys2Proof.Machine
end

section
/-! PROOFS. Keypad and timers (spec/44_keypad_timers.md R135 to R146): the wait poll and the two events of the host, each
brought to the one state operation it is made of, and the keypad and timer instructions. -/

namespace Sys2Proof.Machine

/-! ### The wait poll (R140, R141) -/

/-- R140: the `STEP` of a waiting core is the poll. -/
theorem stepEvent_of_waiting {s : State} (hfault : s.FAULT = none) (hwait : s.WAIT = true) :
    stepEvent s = pollWait s := by
  rw [stepEvent, hfault, hwait]
  rfl

/-- With a `STEP` next, a waiting core polls. -/
theorem step_of_waiting {s : State} (hnext : s.StepIsNext) (hfault : s.FAULT = none) (hwait : s.WAIT = true) :
    step s = pollWait (takeEvent s) :=
  (step_of_stepIsNext hnext).trans (stepEvent_of_waiting (s := takeEvent s) hfault hwait)

theorem pollWait_of_no_key {s : State} (hup : ∀ k : KeyIdx, s.key[k] = false) : pollWait s = .next s := by
  rw [pollWait, (keyScan_none s.key).mpr hup]

/-- The state at the end of a wait by key `k`, but for pc. -/
def State.endWait (s : State) (k : KeyIdx) : State :=
  { s.setReg s.WAITX (BitVec.ofNat 8 k.val) with WAIT := false }

/-- R141: the poll ends the wait by the lowest pressed key (decision D24). -/
theorem pollWait_of_lowest_key {s : State} {k : KeyIdx} (hdown : s.key[k] = true)
    (hlowest : ∀ j : KeyIdx, j < k → s.key[j] = false) : pollWait s = advance (s.endWait k) s := by
  rw [pollWait, (keyScan_some s.key k).mpr ⟨hdown, hlowest⟩]
  rfl

/-- A key index fits a byte. -/
theorem endWait_reg_toNat (s : State) (k : KeyIdx) : ((s.endWait k).reg s.WAITX).toNat = k.val := by
  have hreg : (s.endWait k).reg s.WAITX = BitVec.ofNat 8 k.val := State.reg_setReg_same s s.WAITX _
  rw [hreg, BitVec.toNat_ofNat, Nat.mod_eq_of_lt (by omega)]

theorem setWait_same_part (s : State) (b : Bool) {p : Part} (h : p ≠ .wait) : p.same s { s with WAIT := b } := by
  cases p with
  | wait => exact absurd rfl h
  | _ => rfl

theorem endWait_same_part (s : State) (k : KeyIdx) {p : Part} (hreg : p ≠ .reg s.WAITX) (hwait : p ≠ .wait) :
    p.same s (s.endWait k) :=
  same_part_trans (setReg_same_part s _ hreg) (setWait_same_part _ false hwait)

/-- Settles O13: the poll is the sequential advance around the end of the wait, so it makes all its writes or, past 0xFFF,
none. -/
theorem waitEndsWithTheLowestPressedKey : Obligations.WaitEndsWithTheLowestPressedKey := by
  intro s k hnext hfault hwait hdown hlowest
  have hstep : step s = advance ((takeEvent s).endWait k) (takeEvent s) :=
    (step_of_waiting hnext hfault hwait).trans (pollWait_of_lowest_key (s := takeEvent s) hdown hlowest)
  constructor
  · intro hadv
    refine ⟨_, hstep.trans (advance_of_canAdvance (s := takeEvent s) hadv _), endWait_reg_toNat (takeEvent s) k, rfl,
      toNat_pc_of_canAdvance hadv, fun p hp => ?_⟩
    obtain ⟨hreg, hwaitPart, hpc⟩ : p ≠ .reg s.WAITX ∧ p ≠ .wait ∧ p ≠ .pc := by simpa using hp
    exact same_part_trans (endWait_same_part (takeEvent s) k hreg hwaitPart) (setPc_same_part _ _ hpc)
  · intro hpast
    have hout : ¬ (takeEvent s).CanAdvance 2 := fun hadv => Nat.not_lt_of_le hadv.2 hpast
    exact ⟨_, hstep.trans (advance_of_not hout _), latchesOnly_of_eq _ _⟩

/-- Settles O12: the scan finds no key. -/
theorem waitingStepWithNoKeyChangesNothing : Obligations.WaitingStepWithNoKeyChangesNothing :=
  fun s hnext hfault hwait hup =>
    (step_of_waiting hnext hfault hwait).trans (pollWait_of_no_key (s := takeEvent s) hup)

/-! ### `TICK` and `SET_KEY` (R145, R146) -/

/-- R3: a step is the event the schedule names. -/
theorem step_of_nextEvent {s : State} {e : Event} (h : nextEvent s = e) : step s = runEvent e (takeEvent s) := by
  rw [step, h]

/-- `TICK` is a write of each timer. -/
theorem tickEvent_eq (s : State) : tickEvent s = (s.setDT (countDown s.DT)).setST (countDown s.ST) := rfl

theorem tickEvent_same_part (s : State) {p : Part} (hdt : p ≠ .dt) (hst : p ≠ .st) : p.same s (tickEvent s) := by
  rw [tickEvent_eq]
  exact same_part_trans (setDT_same_part s _ hdt) (setST_same_part _ _ hst)

/-- Settles O14: each timer counts down by itself, and the core's condition is not looked at (decision D6). -/
theorem tickCountsBothTimersDown : Obligations.TickCountsBothTimersDown := by
  intro s he
  refine ⟨_, step_of_nextEvent he, countDown_toNat s.DT, countDown_toNat s.ST, fun p hp => ?_⟩
  obtain ⟨hdt, hst⟩ : p ≠ .dt ∧ p ≠ .st := by simpa using hp
  exact tickEvent_same_part (takeEvent s) hdt hst

theorem setKeyEvent_of_key (s : State) (k : KeyIdx) (pressed : Bool) :
    setKeyEvent k.val pressed s = { s with key := s.key.set k.val pressed } := dif_pos k.isLt

theorem setKeyEvent_of_rejected {index : Nat} (h : 15 < index) (pressed : Bool) (s : State) :
    setKeyEvent index pressed s = s := dif_neg (by omega)

theorem setKeyEvent_key_same (s : State) (k : KeyIdx) (pressed : Bool) :
    (setKeyEvent k.val pressed s).key[k] = pressed := by
  rw [setKeyEvent_of_key]
  exact Vector.getElem_set_self k.isLt

theorem setKeyEvent_same_part (s : State) (k : KeyIdx) (pressed : Bool) {p : Part} (h : p ≠ .keyFlag k) :
    p.same s (setKeyEvent k.val pressed s) := by
  rw [setKeyEvent_of_key]
  cases p with
  | keyFlag j =>
    have hne : k.val ≠ j.val := fun he => h (congrArg Part.keyFlag (Fin.ext he.symm))
    exact Vector.getElem_set_ne k.isLt j.isLt hne
  | _ => rfl

/-- Settles O15: an index is a key's, or above 15 and rejected (decision D33). -/
theorem setKeyWritesOneFlag : Obligations.SetKeyWritesOneFlag := by
  intro s index pressed he
  refine ⟨_, step_of_nextEvent he, fun k hk => ?_, fun hrejected p _ => ?_⟩
  · subst hk
    exact ⟨setKeyEvent_key_same _ k pressed, fun p hp =>
      setKeyEvent_same_part _ k pressed fun hflag => hp (List.mem_singleton.mpr hflag)⟩
  · rw [setKeyEvent_of_rejected hrejected]
    exact same_part_refl _ p

/-! ### The skips on a key (R135 to R137) -/

/-- R137: a register that holds a key's index names that key. -/
theorem keyIndex_of_key {v : Byte} {k : KeyIdx} (h : v.toNat = k.val) :
    keyIndex Config.keyIndexPolicy v = .ok k := by
  rw [keyIndex_of_le _ (by omega), h, Fin.ofNat_val_eq_self]

theorem exec_skp_of_key {s : State} {x : RegIdx} {k : KeyIdx} (h : (s.reg x).toNat = k.val) :
    exec (.skp x) s = finish (skipTarget s s.key[k]) s s := by
  show execSkp x s = _
  rw [execSkp, keyIndex_of_key h]

theorem exec_sknp_of_key {s : State} {x : RegIdx} {k : KeyIdx} (h : (s.reg x).toNat = k.val) :
    exec (.sknp x) s = finish (skipTarget s (!s.key[k])) s s := by
  show execSknp x s = _
  rw [execSknp, keyIndex_of_key h]

/-- Settles O47: conditional skips, on the key's flag and on its negation. -/
theorem keySkipsFollowTheKeyFlag : Obligations.KeySkipsFollowTheKeyFlag := by
  intro s x k d e hx hd he
  have hnot : e = if (!s.key[k]) = true then 4 else 2 := by
    rw [he]
    cases s.key[k] <;> rfl
  obtain ⟨hskp, hskpOut⟩ := skip_writes_pc_or_latches (exec_skp_of_key hx) hd
  obtain ⟨hsknp, hsknpOut⟩ := skip_writes_pc_or_latches (exec_sknp_of_key hx) hnot
  exact ⟨hskp, hskpOut, hsknp, hsknpOut⟩

/-- Settles O48: the check of the key index is the one check of its own that either skip has, before that of the new pc
(R159). -/
theorem keyIndexAboveFFaults : Obligations.KeyIndexAboveFFaults := by
  intro s x hx
  have hfault : faultOf (keyIndex Config.keyIndexPolicy (s.reg x)) = some (.keyIndexError (s.reg x)) :=
    congrArg faultOf (keyIndex_of_gt hx)
  exact ⟨exec_latches_ownFault (i := .skp x) hfault, exec_latches_ownFault (i := .sknp x) hfault⟩

/-! ### The timer moves and the entry into the wait (R138, R139, R142, R143) -/

theorem unchangedBut_setDT (s : State) (v : Byte) : UnchangedBut [.dt] s (s.setDT v) :=
  fun _ hp => setDT_same_part s v fun he => hp (List.mem_singleton.mpr he)

theorem unchangedBut_setST (s : State) (v : Byte) : UnchangedBut [.st] s (s.setST v) :=
  fun _ hp => setST_same_part s v fun he => hp (List.mem_singleton.mpr he)

/-- Settles O49: three sequential instructions with one write each besides pc. -/
theorem timerMoves : Obligations.TimerMoves := by
  intro s x hadv
  have hpc := toNat_pc_of_canAdvance hadv
  refine ⟨exec_writes_one_reg rfl hadv, ?_, ?_⟩
  · exact ⟨_, advance_of_canAdvance hadv (s.setDT (s.reg x)), rfl, hpc,
      unchangedBut_pc_cons (unchangedBut_setDT s _) _⟩
  · exact ⟨_, advance_of_canAdvance hadv (s.setST (s.reg x)), rfl, hpc,
      unchangedBut_pc_cons (unchangedBut_setST s _) _⟩

/-- Settles O50: the instruction is its two writes, with no check and no write of pc (decision D23). -/
theorem keyWaitIsEnteredWithoutMovingPc : Obligations.KeyWaitIsEnteredWithoutMovingPc := by
  intro s x
  refine ⟨_, rfl, rfl, rfl, fun p hp => ?_⟩
  obtain ⟨hwait, hwaitX⟩ : p ≠ .wait ∧ p ≠ .waitX := by simpa using hp
  exact enterWait_same_part s x hwait hwaitX

end Sys2Proof.Machine
end

section
/-! PROOFS. The exceptions (spec/60_exceptions.md R150 to R160): what raises them, that the first one recorded stays, and
that none ends the model's run but the load error of a `RESET`. -/

namespace Sys2Proof.Machine

/-! ### An unknown opcode (R153) -/

/-- R55: a word that no row covers is illegal, since a word that decodes is covered by its instruction's row. -/
theorem decode_of_uncovered {w : Word} (h : ∀ r ∈ opcodeTable, r.covers w = false) : decode w = .error (.illegal w) := by
  rcases decode_ok_or_illegal w with ⟨i, hdec⟩ | hillegal
  · exact absurd (covers_of_decode hdec) (Bool.eq_false_iff.1 (h i.row (row_mem_opcodeTable i)))
  · exact hillegal

theorem decodeAndExecute_of_decode_error {op : Word} {e : DecodeError} (s : State) (hdec : decode op = .error e) :
    decodeAndExecute op s = raise (.unknownOpcode s.pc op) s := by
  rw [decodeAndExecute, hdec]

/-- Settles O8: the fetch succeeds and the decoder rejects the word, so all that happens is that the fault is raised. -/
theorem unmatchedWordLatchesUnknownOpcode : Obligations.UnmatchedWordLatchesUnknownOpcode := by
  rintro s w hnext hrun hpc rfl huncovered
  have htaken : (takeEvent s).Running := hrun
  have hstep : step s = raise (.unknownOpcode s.pc (wordAt s.mem s.pc.toNat)) (takeEvent s) :=
    calc step s
      _ = stepEvent (takeEvent s) := step_of_stepIsNext hnext
      _ = decodeAndExecute (wordAt s.mem s.pc.toNat) (takeEvent s) := stepEvent_eq_decodeAndExecute htaken hpc
      _ = _ := decodeAndExecute_of_decode_error _ (decode_of_uncovered huncovered)
  exact ⟨_, hstep, latchesOnly_of_eq _ _⟩

/-! ### The stack faults (R155, R156) -/

/-- Settles O21: the underflow check is the own check of `RET`. -/
theorem retOnAnEmptyStackUnderflows : Obligations.RetOnAnEmptyStackUnderflows :=
  fun _ hempty => exec_latches_ownFault (i := .ret) (if_pos hempty)

/-- Settles O23: the overflow check is the own check of `CALL`, before that of its target (R159). -/
theorem callOnAFullStackOverflows : Obligations.CallOnAFullStackOverflows :=
  fun _ nnn hfull => exec_latches_ownFault (i := .call nnn) (if_pos hfull)

/-! ### The halted core (R160) -/

theorem stepEvent_of_halted {s : State} (h : s.Halted) : stepEvent s = .next s := if_pos h

/-- Settles O10: the latch is looked at before anything else (decision D6). -/
theorem haltedStepChangesNothing : Obligations.HaltedStepChangesNothing :=
  fun s hnext hhalted => (step_of_stepIsNext hnext).trans (stepEvent_of_halted (s := takeEvent s) hhalted)

theorem setKeyEvent_FAULT (index : Nat) (pressed : Bool) (s : State) :
    (setKeyEvent index pressed s).FAULT = s.FAULT := by
  rw [setKeyEvent_eq]

/-- Settles O11: a `STEP` of the halted core changes nothing, and of the other events only `RESET` writes the latch. -/
theorem firstFaultIsKeptUntilReset : Obligations.FirstFaultIsKeptUntilReset := by
  intro s t k hfault hreset h
  cases he : nextEvent s with
  | step =>
    have hhalted : s.Halted := Option.isSome_of_eq_some hfault
    rw [haltedStepChangesNothing s he hhalted] at h
    cases h
    exact hfault
  | tick =>
    rw [step_of_nextEvent he] at h
    cases h
    exact hfault
  | setKey index pressed =>
    rw [step_of_nextEvent he] at h
    cases h
    exact (setKeyEvent_FAULT index pressed (takeEvent s)).trans hfault
  | read =>
    rw [step_of_nextEvent he] at h
    cases h
    exact hfault
  | reset rom => exact absurd he (hreset rom)

/-! ### The load error (R158, R182) -/

theorem resetEvent_of_gt {rom : List Byte} (hlen : Config.romMax < rom.length) (s : State) :
    resetEvent rom s = .fault (.loadError rom.length) :=
  if_neg fun hwf => Nat.not_le_of_lt hlen (of_decide_eq_true hwf)

/-- Settles O18: the size is checked before any machine is made. -/
theorem oversizedRomIsALoadError : Obligations.OversizedRomIsALoadError :=
  fun s _ he hlen => (step_of_nextEvent he).trans (resetEvent_of_gt hlen (takeEvent s))

/-! ### No other end of a run (log entries 1, 21) -/

theorem finish_answers_next (d : Nat) (e s : State) : ∃ t, finish d e s = .next t := by
  by_cases hv : ValidTarget d
  · exact ⟨_, finish_of_valid hv e s⟩
  · exact ⟨_, finish_of_invalid hv e s⟩

/-- An instruction's own check fails and raises, or its end writes pc or raises; and the wait is entered with no check. -/
theorem exec_answers_next (i : Instr) (s : State) : ∃ t, exec i s = .next t := by
  rcases hown : ownFault i s with _ | k
  · by_cases hwait : ∃ x, i = .ldVxK x
    · obtain ⟨x, rfl⟩ := hwait
      exact ⟨_, rfl⟩
    · rw [exec_of_no_ownFault (fun x hx => hwait ⟨x, hx⟩) hown]
      exact finish_answers_next _ _ s
  · exact ⟨_, exec_of_ownFault hown⟩

theorem decodeAndExecute_answers_next (op : Word) (s : State) : ∃ t, decodeAndExecute op s = .next t := by
  cases hdec : decode op with
  | error e => exact ⟨_, decodeAndExecute_of_decode_error s hdec⟩
  | ok i =>
    rw [decodeAndExecute_of_decode_ok s hdec]
    exact exec_answers_next i s

theorem pollWait_answers_next (s : State) : ∃ t, pollWait s = .next t := by
  unfold pollWait
  split
  · exact ⟨s, rfl⟩
  · exact finish_answers_next _ _ s

/-- R70: whether the core is halted, waits, has no room for a fetch or runs, a `STEP` answers a next state. -/
theorem stepEvent_answers_next (s : State) : ∃ t, stepEvent s = .next t := by
  by_cases hhalted : s.Halted
  · exact ⟨s, stepEvent_of_halted hhalted⟩
  have hfault : s.FAULT = none := Option.not_isSome_iff_eq_none.1 hhalted
  by_cases hwait : s.WAIT = true
  · rw [stepEvent_of_waiting hfault hwait]
    exact pollWait_answers_next s
  have hrun : s.Running := ⟨hfault, Bool.eq_false_iff.2 hwait⟩
  by_cases hroom : s.pc.toNat ≤ 0xFFE
  · rw [stepEvent_eq_decodeAndExecute hrun hroom]
    exact decodeAndExecute_answers_next _ s
  · exact ⟨_, stepEvent_eq_raise_of_no_room hrun (Nat.lt_of_not_le hroom)⟩

/-- Settles O54, event by event: `STEP` by its cases, and only `RESET` can end otherwise, for a ROM that is too long. -/
theorem everyStepAnswersANextState : Obligations.EveryStepAnswersANextState := by
  refine ⟨exec_answers_next, fun s hrom => ?_⟩
  cases he : nextEvent s with
  | step =>
    rw [step_of_stepIsNext he]
    exact stepEvent_answers_next _
  | tick | setKey _ _ | read => exact ⟨_, step_of_nextEvent he⟩
  | reset rom => exact ⟨_, (step_of_nextEvent he).trans (resetEvent_of_le (hrom rom he) _)⟩

end Sys2Proof.Machine
end
